-- ==== Sys2Proof/Word.lean ====
section
/-! DEFINITION. The widths of 00_scope.md R5: bytes, 16-bit words and register numbers. -/

namespace Sys2Proof

/-- A memory cell, a general register, an 8-bit immediate `nn`: 8 bits, unsigned (R5, R8). -/
abbrev Byte := BitVec 8

/-- An opcode, pc, I, a stack entry: 16 bits, unsigned (R5, R8). -/
abbrev Word := BitVec 16

/-- The number of a general register, V[0] to V[0xF] (R10, R21). -/
abbrev Reg := Fin 16

/-- The number of a key, 0 to 15 (R32). -/
abbrev Key := Fin 16

/-- A column of the framebuffer, 0 to 63 (R33). -/
abbrev Col := Fin 64

/-- A row of the framebuffer, 0 to 31 (R33). -/
abbrev Row := Fin 32

end Sys2Proof
end

