-- ==== Sys2Proof/Config.lean ====
section
/-! DEFINITION. What the spec leaves to the implementation: the named parameters of 00_scope.md R6, and the free values. -/

namespace Sys2Proof

/-- `UNLISTED_OPS` (R6, D9): whether 7xnn, Annn and Cxnn execute or raise UnknownOpcode. -/
inductive UnlistedOps where
  | incl    -- `include`
  | refuse  -- `refuse`
  deriving DecidableEq, Repr

/-- `VF_OPERAND_POLICY` (R6, D6): whether an 8xy_ word whose result the order of the VF write decides
executes by the sequential reading or is refused by the model (R125, R132). -/
inductive VfOperandPolicy where
  | sequential
  | refuse
  deriving DecidableEq, Repr

/-- The font table: 16 glyphs of 5 bytes, the top row first (R5, R31). -/
abbrev Font := Vector (Vector Byte 5) 16

/-- The named parameters of R6 that have a value (`RND` is `Config.draw`).
Their defaults are `Machine.standardParams`. -/
structure Params where
  /-- `FONT`: the 80 bytes seeded at 0x000 to 0x04F by a reset (R31, D15). -/
  font : Font
  /-- `TIMER_HZ`: how often a second the host calls `tick` (R222, D17). No transition reads it. -/
  timerHz : Nat
  /-- `UNLISTED_OPS` (R184, D9). -/
  unlistedOps : UnlistedOps
  /-- `VF_OPERAND_POLICY` (R132, D6). -/
  vfOperandPolicy : VfOperandPolicy
  deriving DecidableEq, Repr

/-- `RND` (R6, R95, R183, D10): the draw number `k` of the machine's life, a free value under no law.
DESIGN CHOICE, log 1. -/
opaque Config.draw : Nat → Byte

/-- Which pc a host skip leaves when `pc + 2` does not fit 16 bits: R233 states no value there, so it is free but for R233's
bound, which `Machine.pcPastMemory` keeps. DESIGN CHOICE, log 20. -/
opaque Config.skipPastTop : Word → Nat

end Sys2Proof
end

