-- ==== Sys2Proof/Syntax.lean ====
section
/-! DEFINITION. The instructions: one constructor for each of the 34 rows of spec/opcode_table.json (30_encoding.md R72 to R75). -/

namespace Sys2Proof

/-- An instruction with its operands (R73): `x` and `y` are register numbers, `nn` is an 8-bit immediate, `nnn` is an
address of 12 bits zero-extended to the width of pc and I, and `n` is a count of 4 bits (`Instr.WellFormed` bounds
the last two). -/
inductive Instr where
  /-- 00E0 `CLS` (R100) -/
  | cls
  /-- 00EE `RET` (R101) -/
  | ret
  /-- 1nnn `JP nnn` (R102) -/
  | jp (nnn : Word)
  /-- 2nnn `CALL nnn` (R103) -/
  | call (nnn : Word)
  /-- 3xnn `SE Vx, nn` (R104) -/
  | seImm (x : Reg) (nn : Byte)
  /-- 4xnn `SNE Vx, nn` (R105) -/
  | sneImm (x : Reg) (nn : Byte)
  /-- 5xy0 `SE Vx, Vy` (R106) -/
  | seReg (x y : Reg)
  /-- 6xnn `LD Vx, nn` (R180) -/
  | ldImm (x : Reg) (nn : Byte)
  /-- 7xnn `ADD Vx, nn` (R181) -/
  | addImm (x : Reg) (nn : Byte)
  /-- 8xy0 `LD Vx, Vy` (R121) -/
  | ldReg (x y : Reg)
  /-- 8xy1 `OR Vx, Vy` (R122) -/
  | orReg (x y : Reg)
  /-- 8xy2 `AND Vx, Vy` (R123) -/
  | andReg (x y : Reg)
  /-- 8xy3 `XOR Vx, Vy` (R124) -/
  | xorReg (x y : Reg)
  /-- 8xy4 `ADD Vx, Vy` (R126) -/
  | addReg (x y : Reg)
  /-- 8xy5 `SUB Vx, Vy` (R127) -/
  | subReg (x y : Reg)
  /-- 8xy6 `SHR Vx, Vy` (R128); `y` is decoded and not read -/
  | shr (x y : Reg)
  /-- 8xy7 `SUBN Vx, Vy` (R129) -/
  | subnReg (x y : Reg)
  /-- 8xyE `SHL Vx, Vy` (R130); `y` is decoded and not read -/
  | shl (x y : Reg)
  /-- 9xy0 `SNE Vx, Vy` (R107) -/
  | sneReg (x y : Reg)
  /-- Annn `LD I, nnn` (R182) -/
  | ldI (nnn : Word)
  /-- Bnnn `JP V0, nnn` (R108) -/
  | jpV0 (nnn : Word)
  /-- Cxnn `RND Vx, nn` (R183) -/
  | rnd (x : Reg) (nn : Byte)
  /-- Dxyn `DRW Vx, Vy, n` (R141) -/
  | drw (x y : Reg) (n : Nat)
  /-- Ex9E `SKP Vx` (R151) -/
  | skp (x : Reg)
  /-- ExA1 `SKNP Vx` (R152) -/
  | sknp (x : Reg)
  /-- Fx07 `LD Vx, DT` (R154) -/
  | ldVxDT (x : Reg)
  /-- Fx0A `LD Vx, K` (R157) -/
  | ldVxK (x : Reg)
  /-- Fx15 `LD DT, Vx` (R155) -/
  | ldDTVx (x : Reg)
  /-- Fx18 `LD ST, Vx` (R156) -/
  | ldSTVx (x : Reg)
  /-- Fx1E `ADD I, Vx` (R160) -/
  | addIVx (x : Reg)
  /-- Fx29 `LD F, Vx` (R161) -/
  | ldFVx (x : Reg)
  /-- Fx33 `LD B, Vx` (R162) -/
  | ldBVx (x : Reg)
  /-- Fx55 `LD [I], Vx` (R163) -/
  | ldMemVx (x : Reg)
  /-- Fx65 `LD Vx, [I]` (R164) -/
  | ldVxMem (x : Reg)
  deriving DecidableEq, Repr

end Sys2Proof
end

