-- ==== Sys2Proof/WellFormed.lean ====
section
/-! DEFINITION. Which instruction terms an opcode word can carry (30_encoding.md R71, R73). -/

namespace Sys2Proof

/-- `nnn` is a 12-bit field (R71), zero-extended (R73). -/
def fitsNNN (nnn : Word) : Bool := decide (nnn.toNat ≤ 0xFFF)

/-- `n` is a 4-bit field, 0 to 15 (R71, R73). -/
def fitsN (n : Nat) : Bool := decide (n ≤ 15)

/-- The operands fit the fields of the word. A register number and an 8-bit immediate always fit. -/
def Instr.wf : Instr → Bool
  | .cls => true
  | .ret => true
  | .jp nnn => fitsNNN nnn
  | .call nnn => fitsNNN nnn
  | .seImm _ _ => true
  | .sneImm _ _ => true
  | .seReg _ _ => true
  | .ldImm _ _ => true
  | .addImm _ _ => true
  | .ldReg _ _ => true
  | .orReg _ _ => true
  | .andReg _ _ => true
  | .xorReg _ _ => true
  | .addReg _ _ => true
  | .subReg _ _ => true
  | .shr _ _ => true
  | .subnReg _ _ => true
  | .shl _ _ => true
  | .sneReg _ _ => true
  | .ldI nnn => fitsNNN nnn
  | .jpV0 nnn => fitsNNN nnn
  | .rnd _ _ => true
  | .drw _ _ n => fitsN n
  | .skp _ => true
  | .sknp _ => true
  | .ldVxDT _ => true
  | .ldVxK _ => true
  | .ldDTVx _ => true
  | .ldSTVx _ => true
  | .addIVx _ => true
  | .ldFVx _ => true
  | .ldBVx _ => true
  | .ldMemVx _ => true
  | .ldVxMem _ => true

/-- The instruction is one that some opcode word encodes. -/
abbrev Instr.WellFormed (i : Instr) : Prop := i.wf = true

end Sys2Proof
end

