-- ==== Sys2Proof/Decode.lean ====
section
/-! DEFINITION. The decoder and the dispatch of 30_encoding.md (R70 to R76), then the encoder and the opcode table. -/

namespace Sys2Proof

/-! ### The fields of R71 -/

/-- `o = op[15:12]`, the family. -/
def opFamily (op : Word) : BitVec 4 := op.extractLsb' 12 4

/-- `x = op[11:8]`. -/
def opX (op : Word) : Reg := (op.extractLsb' 8 4).toFin

/-- `y = op[7:4]`. -/
def opY (op : Word) : Reg := (op.extractLsb' 4 4).toFin

/-- `n = op[3:0]`. -/
def opN (op : Word) : Nat := (op.extractLsb' 0 4).toNat

/-- `nn = op[7:0]`. -/
def opNN (op : Word) : Byte := op.extractLsb' 0 8

/-- `nnn = op[11:0]`, zero-extended (R73). -/
def opNNN (op : Word) : Word := (op.extractLsb' 0 12).setWidth 16

/-! ### Dispatch (R74, R75) -/

/-- Family 0 dispatches on the whole word (R75; C4, D28). -/
def decodeFamily0 (op : Word) : Option Instr :=
  if op = 0x00E0 then some .cls
  else if op = 0x00EE then some .ret
  else none

/-- Families 5 and 9 accept `n = 0` only (R75; C3). -/
def decodeFamily5 (op : Word) : Option Instr :=
  if opN op = 0 then some (.seReg (opX op) (opY op)) else none

/-- Family 8 dispatches on `n` (R75). -/
def decodeFamily8 (op : Word) : Option Instr :=
  match opN op with
  | 0x0 => some (.ldReg (opX op) (opY op))
  | 0x1 => some (.orReg (opX op) (opY op))
  | 0x2 => some (.andReg (opX op) (opY op))
  | 0x3 => some (.xorReg (opX op) (opY op))
  | 0x4 => some (.addReg (opX op) (opY op))
  | 0x5 => some (.subReg (opX op) (opY op))
  | 0x6 => some (.shr (opX op) (opY op))
  | 0x7 => some (.subnReg (opX op) (opY op))
  | 0xE => some (.shl (opX op) (opY op))
  | _ => none

/-- Family 9 accepts `n = 0` only (R75; C3). -/
def decodeFamily9 (op : Word) : Option Instr :=
  if opN op = 0 then some (.sneReg (opX op) (opY op)) else none

/-- Family E dispatches on `nn` (R75). -/
def decodeFamilyE (op : Word) : Option Instr :=
  match (opNN op).toNat with
  | 0x9E => some (.skp (opX op))
  | 0xA1 => some (.sknp (opX op))
  | _ => none

/-- Family F dispatches on `nn` (R75). -/
def decodeFamilyF (op : Word) : Option Instr :=
  match (opNN op).toNat with
  | 0x07 => some (.ldVxDT (opX op))
  | 0x0A => some (.ldVxK (opX op))
  | 0x15 => some (.ldDTVx (opX op))
  | 0x18 => some (.ldSTVx (opX op))
  | 0x1E => some (.addIVx (opX op))
  | 0x29 => some (.ldFVx (opX op))
  | 0x33 => some (.ldBVx (opX op))
  | 0x55 => some (.ldMemVx (opX op))
  | 0x65 => some (.ldVxMem (opX op))
  | _ => none

/-- The instruction of `opcode_table.json` a word is, or none (R74 to R76). -/
def decodeWord (op : Word) : Option Instr :=
  match (opFamily op).toNat with
  | 0x0 => decodeFamily0 op
  | 0x1 => some (.jp (opNNN op))
  | 0x2 => some (.call (opNNN op))
  | 0x3 => some (.seImm (opX op) (opNN op))
  | 0x4 => some (.sneImm (opX op) (opNN op))
  | 0x5 => decodeFamily5 op
  | 0x6 => some (.ldImm (opX op) (opNN op))
  | 0x7 => some (.addImm (opX op) (opNN op))
  | 0x8 => decodeFamily8 op
  | 0x9 => decodeFamily9 op
  | 0xA => some (.ldI (opNNN op))
  | 0xB => some (.jpV0 (opNNN op))
  | 0xC => some (.rnd (opX op) (opNN op))
  | 0xD => some (.drw (opX op) (opY op) (opN op))
  | 0xE => decodeFamilyE op
  | 0xF => decodeFamilyF op
  | _ => none

/-- The instructions the source's tables do not list: 7xnn, Annn and Cxnn (R184; D9). -/
def Instr.unlisted : Instr → Bool
  | .addImm _ _ => true
  | .ldI _ => true
  | .rnd _ _ => true
  | _ => false

/-- Whether the setting of `UNLISTED_OPS` admits the instruction (R76, R184). -/
def UnlistedOps.admits (u : UnlistedOps) (i : Instr) : Bool :=
  match u with
  | .incl => true
  | .refuse => !i.unlisted

/-- `dispatch(op)` of R91, total: the instruction of the word under the setting of `UNLISTED_OPS`; none is `Unknown`. -/
def dispatch (u : UnlistedOps) (op : Word) : Option Instr :=
  (decodeWord op).filter u.admits

/-! ### Decoding bytes (R50, R70) -/

/-- The opcode of two bytes in big-endian order (R9, R50). -/
def wordOfBytes (hi lo : Byte) : Word := hi ++ lo

/-- Why a list of bytes is no instruction. -/
inductive DecodeError where
  /-- fewer than the two bytes of an instruction (R70) -/
  | truncated
  /-- a word of R76 -/
  | unknownOpcode (op : Word)
  deriving DecidableEq, Repr

/-- The instruction at the head of a list of bytes and the bytes after it. -/
def decode : List Byte → Except DecodeError (Instr × List Byte)
  | hi :: lo :: rest =>
    match decodeWord (wordOfBytes hi lo) with
    | some i => .ok (i, rest)
    | none => .error (.unknownOpcode (wordOfBytes hi lo))
  | [_] => .error .truncated
  | [] => .error .truncated

/-- The first instruction of the bytes, if they begin with one. -/
def decodeFirst (bs : List Byte) : Option Instr :=
  match decode bs with
  | .ok (i, _) => some i
  | .error _ => none

/-! ### The encoder, from the formats of R72 -/

/-- Format `NNN`: `oooo nnnn nnnn nnnn`. -/
def encodeNNN (o : BitVec 4) (nnn : Word) : Word := o ++ nnn.setWidth 12

/-- Format `XNN`: `oooo xxxx nnnn nnnn`; format `X` with the function byte in place of `nn`. -/
def encodeXNN (o : BitVec 4) (x : Reg) (nn : Byte) : Word := o ++ (BitVec.ofFin x : BitVec 4) ++ nn

/-- Format `XYN`: `oooo xxxx yyyy nnnn`; format `XY` with the function nibble in place of `n`. -/
def encodeXYN (o : BitVec 4) (x y : Reg) (n : BitVec 4) : Word :=
  o ++ (BitVec.ofFin x : BitVec 4) ++ (BitVec.ofFin y : BitVec 4) ++ n

/-- The opcode word of an instruction (R72, with the fixed nibbles and bytes of `opcode_table.json`). -/
def encode : Instr → Word
  | .cls => 0x00E0
  | .ret => 0x00EE
  | .jp nnn => encodeNNN 0x1 nnn
  | .call nnn => encodeNNN 0x2 nnn
  | .seImm x nn => encodeXNN 0x3 x nn
  | .sneImm x nn => encodeXNN 0x4 x nn
  | .seReg x y => encodeXYN 0x5 x y 0x0
  | .ldImm x nn => encodeXNN 0x6 x nn
  | .addImm x nn => encodeXNN 0x7 x nn
  | .ldReg x y => encodeXYN 0x8 x y 0x0
  | .orReg x y => encodeXYN 0x8 x y 0x1
  | .andReg x y => encodeXYN 0x8 x y 0x2
  | .xorReg x y => encodeXYN 0x8 x y 0x3
  | .addReg x y => encodeXYN 0x8 x y 0x4
  | .subReg x y => encodeXYN 0x8 x y 0x5
  | .shr x y => encodeXYN 0x8 x y 0x6
  | .subnReg x y => encodeXYN 0x8 x y 0x7
  | .shl x y => encodeXYN 0x8 x y 0xE
  | .sneReg x y => encodeXYN 0x9 x y 0x0
  | .ldI nnn => encodeNNN 0xA nnn
  | .jpV0 nnn => encodeNNN 0xB nnn
  | .rnd x nn => encodeXNN 0xC x nn
  | .drw x y n => encodeXYN 0xD x y (BitVec.ofNat 4 n)
  | .skp x => encodeXNN 0xE x 0x9E
  | .sknp x => encodeXNN 0xE x 0xA1
  | .ldVxDT x => encodeXNN 0xF x 0x07
  | .ldVxK x => encodeXNN 0xF x 0x0A
  | .ldDTVx x => encodeXNN 0xF x 0x15
  | .ldSTVx x => encodeXNN 0xF x 0x18
  | .addIVx x => encodeXNN 0xF x 0x1E
  | .ldFVx x => encodeXNN 0xF x 0x29
  | .ldBVx x => encodeXNN 0xF x 0x33
  | .ldMemVx x => encodeXNN 0xF x 0x55
  | .ldVxMem x => encodeXNN 0xF x 0x65

/-- The byte of a word that stands at the lower address, bits 15 to 8 (R50). -/
def hiByte (w : Word) : Byte := w.extractLsb' 8 8

/-- The byte of a word that stands at the higher address, bits 7 to 0 (R50). -/
def loByte (w : Word) : Byte := w.extractLsb' 0 8

/-- The two bytes of an instruction in address order. -/
def encodeBytes (i : Instr) : List Byte := [hiByte (encode i), loByte (encode i)]

/-! ### The opcode table as data -/

/-- A row of `opcode_table.json`: a word `op` is of the row when `op AND mask = value` (R91). -/
structure OpcodeRow where
  mnemonic : String
  mask : Word
  value : Word
  deriving DecidableEq, Repr

/-- `op & mask == match` (R91). -/
def OpcodeRow.matchesWord (row : OpcodeRow) (op : Word) : Bool := op &&& row.mask == row.value

/-- The row of `opcode_table.json` an instruction is. -/
def Instr.row : Instr → OpcodeRow
  | .cls => ⟨"CLS", 0xFFFF, 0x00E0⟩
  | .ret => ⟨"RET", 0xFFFF, 0x00EE⟩
  | .jp _ => ⟨"JP_nnn", 0xF000, 0x1000⟩
  | .call _ => ⟨"CALL_nnn", 0xF000, 0x2000⟩
  | .seImm _ _ => ⟨"SE_Vx__nn", 0xF000, 0x3000⟩
  | .sneImm _ _ => ⟨"SNE_Vx__nn", 0xF000, 0x4000⟩
  | .seReg _ _ => ⟨"SE_Vx__Vy", 0xF00F, 0x5000⟩
  | .ldImm _ _ => ⟨"LD_Vx__nn", 0xF000, 0x6000⟩
  | .addImm _ _ => ⟨"ADD_Vx__nn", 0xF000, 0x7000⟩
  | .ldReg _ _ => ⟨"LD_Vx__Vy", 0xF00F, 0x8000⟩
  | .orReg _ _ => ⟨"OR_Vx__Vy", 0xF00F, 0x8001⟩
  | .andReg _ _ => ⟨"AND_Vx__Vy", 0xF00F, 0x8002⟩
  | .xorReg _ _ => ⟨"XOR_Vx__Vy", 0xF00F, 0x8003⟩
  | .addReg _ _ => ⟨"ADD_Vx__Vy", 0xF00F, 0x8004⟩
  | .subReg _ _ => ⟨"SUB_Vx__Vy", 0xF00F, 0x8005⟩
  | .shr _ _ => ⟨"SHR_Vx__Vy", 0xF00F, 0x8006⟩
  | .subnReg _ _ => ⟨"SUBN_Vx__Vy", 0xF00F, 0x8007⟩
  | .shl _ _ => ⟨"SHL_Vx__Vy", 0xF00F, 0x800E⟩
  | .sneReg _ _ => ⟨"SNE_Vx__Vy", 0xF00F, 0x9000⟩
  | .ldI _ => ⟨"LD_I__nnn", 0xF000, 0xA000⟩
  | .jpV0 _ => ⟨"JP_V0__nnn", 0xF000, 0xB000⟩
  | .rnd _ _ => ⟨"RND_Vx__nn", 0xF000, 0xC000⟩
  | .drw _ _ _ => ⟨"DRW_Vx__Vy__n", 0xF000, 0xD000⟩
  | .skp _ => ⟨"SKP_Vx", 0xF0FF, 0xE09E⟩
  | .sknp _ => ⟨"SKNP_Vx", 0xF0FF, 0xE0A1⟩
  | .ldVxDT _ => ⟨"LD_Vx__DT", 0xF0FF, 0xF007⟩
  | .ldVxK _ => ⟨"LD_Vx__K", 0xF0FF, 0xF00A⟩
  | .ldDTVx _ => ⟨"LD_DT__Vx", 0xF0FF, 0xF015⟩
  | .ldSTVx _ => ⟨"LD_ST__Vx", 0xF0FF, 0xF018⟩
  | .addIVx _ => ⟨"ADD_I__Vx", 0xF0FF, 0xF01E⟩
  | .ldFVx _ => ⟨"LD_F__Vx", 0xF0FF, 0xF029⟩
  | .ldBVx _ => ⟨"LD_B__Vx", 0xF0FF, 0xF033⟩
  | .ldMemVx _ => ⟨"LD__I___Vx", 0xF0FF, 0xF055⟩
  | .ldVxMem _ => ⟨"LD_Vx___I", 0xF0FF, 0xF065⟩

/-- One instruction of each row (which operands it has makes no difference to its row). -/
def oneOfEach : List Instr :=
  [.cls, .ret, .jp 0, .call 0, .seImm 0 0, .sneImm 0 0, .seReg 0 0, .ldImm 0 0, .addImm 0 0]
  ++ [.ldReg 0 0, .orReg 0 0, .andReg 0 0, .xorReg 0 0, .addReg 0 0, .subReg 0 0, .shr 0 0, .subnReg 0 0, .shl 0 0]
  ++ [.sneReg 0 0, .ldI 0, .jpV0 0, .rnd 0 0, .drw 0 0 0, .skp 0, .sknp 0]
  ++ [.ldVxDT 0, .ldVxK 0, .ldDTVx 0, .ldSTVx 0, .addIVx 0, .ldFVx 0, .ldBVx 0, .ldMemVx 0, .ldVxMem 0]

/-- `opcode_table.json`, its 34 rows in order. -/
def opcodeTable : List OpcodeRow := oneOfEach.map Instr.row

/-! ### The host's view of the decoder -/

/-- The opcode word whose bits are `w`, of which `nbits` are given and the rest are 0 (an instruction has 16, R70). -/
def tableWord (nbits w : Nat) : Word := BitVec.ofNat 16 (w % 2 ^ nbits)

/-- The instruction the decoder reads from the word's two bytes laid out as the hardware stores them (R50). -/
def decodeTableWord (nbits w : Nat) : Option Instr :=
  decodeFirst [hiByte (tableWord nbits w), loByte (tableWord nbits w)]

end Sys2Proof
end

