-- ==== Sys2Proof/Machine/Flags.lean ====
section
/-! DEFINITION. Every computation of the flag VF (10_state.md R23) and the 8-bit results that go with it (42_alu.md). -/

namespace Sys2Proof.Machine

/-- A flag as the byte VF holds: 1 or 0. -/
def flagByte (b : Bool) : Byte := if b then 1 else 0

/-- 8xy4 (R126): 1 iff the unreduced sum exceeds 255. -/
def carryFlag (a b : Byte) : Byte := flagByte (decide (a.toNat + b.toNat > 255))

/-- 8xy5 and, with the operands exchanged, 8xy7 (R127, R129): 1 iff there is no borrow, `a >= b`. -/
def noBorrowFlag (a b : Byte) : Byte := flagByte (decide (a.toNat ≥ b.toNat))

/-- 8xy6 (R128): the bit shifted out, bit 0. -/
def shiftedOutRight (a : Byte) : Byte := a &&& 1

/-- 8xyE (R130): the bit shifted out, bit 7. -/
def shiftedOutLeft (a : Byte) : Byte := (a >>> 7) &&& 1

/-- Fx1E (R160): 1 iff the unreduced sum exceeds 0xFFF. -/
def indexOverflowFlag (index : Word) (a : Byte) : Byte := flagByte (decide (index.toNat + a.toNat > 0xFFF))

/-- 8xy4 (R126): the sum reduced modulo 256. -/
def addResult (a b : Byte) : Byte := BitVec.ofNat 8 (a.toNat + b.toNat)

/-- 8xy5 and 8xy7 (R127, R129): `(a - b) mod 256`. -/
def subResult (a b : Byte) : Byte := a - b

/-- 8xy6 (R128): `a >> 1`. -/
def shrResult (a : Byte) : Byte := a >>> 1

/-- 8xyE (R130): `(a << 1) mod 256`. -/
def shlResult (a : Byte) : Byte := a <<< 1

/-- Fx1E, Fx55, Fx65 (R26, R160, R163, R164): the index register plus `k`, reduced modulo 2^16. -/
def indexPlus (index : Word) (k : Nat) : Word := BitVec.ofNat 16 (index.toNat + k)

end Sys2Proof.Machine
end

