-- ==== Sys2Proof/Machine/Defaults.lean ====
section
/-! DEFINITION. The defaults of the parameters of 00_scope.md R6, and the contents of memory that a default reset leaves. -/

namespace Sys2Proof.Machine

/-- The default `FONT` (10_state.md R31): one row a glyph, digit 0 first. PRESUMED, log 3. -/
def standardFont : Font :=
  #v[#v[0xF0, 0x90, 0x90, 0x90, 0xF0],
     #v[0x20, 0x60, 0x20, 0x20, 0x70],
     #v[0xF0, 0x10, 0xF0, 0x80, 0xF0],
     #v[0xF0, 0x10, 0xF0, 0x10, 0xF0],
     #v[0x90, 0x90, 0xF0, 0x10, 0x10],
     #v[0xF0, 0x80, 0xF0, 0x10, 0xF0],
     #v[0xF0, 0x80, 0xF0, 0x90, 0xF0],
     #v[0xF0, 0x10, 0x20, 0x40, 0x40],
     #v[0xF0, 0x90, 0xF0, 0x90, 0xF0],
     #v[0xF0, 0x90, 0xF0, 0x10, 0xF0],
     #v[0xF0, 0x90, 0xF0, 0x90, 0x90],
     #v[0xE0, 0x90, 0xE0, 0x90, 0xE0],
     #v[0xF0, 0x80, 0x80, 0x80, 0xF0],
     #v[0xE0, 0x90, 0x90, 0x90, 0xE0],
     #v[0xF0, 0x80, 0xF0, 0x80, 0xF0],
     #v[0xF0, 0x80, 0xF0, 0x80, 0x80]]

/-- The defaults of R6 (D6, D9, D15, D17). -/
def standardParams : Params where
  font := standardFont
  timerHz := 60
  unlistedOps := .incl
  vfOperandPolicy := .sequential

/-- The 80 bytes of a font in address order: glyph d from 5*d, its top row first (R31). -/
def fontBytes (f : Font) : List Byte := f.toList.flatMap Vector.toList

/-- What an address reads as when memory lists no cell for it: the content a reset with the default `FONT` and
no program leaves there (R38, R57), the font in 0x000 to 0x04F and 0 elsewhere. Log 4. -/
def background (a : Nat) : Byte := (fontBytes standardFont).getD a 0

/-- The address of the first instruction after a reset (R38, R240; D1, C8). -/
def resetVector : Word := 0x200

end Sys2Proof.Machine
end

