-- ==== Sys2Proof/Machine/State.lean ====
section
/-! DEFINITION. The Machine State of 10_state.md R20, the reasons a step can stop, and the state after reset (R38). -/

namespace Sys2Proof.Machine

/-- Memory as the cells that differ from `background`, by rising address (`Memory.wf`). -/
abbrev Memory := List Host.Cell

/-- The Machine State: the twelve components of R20 under the spec's names, then two fields of the model's own. -/
structure State where
  /-- 4096 cells of 8 bits (R31) -/
  mem : Memory
  /-- the program counter: the address of the instruction being executed (R24, R25) -/
  pc : Word
  /-- the index register (R26) -/
  I : Word
  /-- the general registers; `V[0xF]` is the flag (R21, R22) -/
  V : Vector Byte 16
  /-- the call stack (R27) -/
  stack : Vector Word 16
  /-- the number of stack entries in use, 0 to 16 (R28; C1) -/
  sp : Fin 17
  /-- the delay timer (R29) -/
  DT : Byte
  /-- the sound timer (R30) -/
  ST : Byte
  /-- which keys are pressed (R32) -/
  keys : Vector Bool 16
  /-- the framebuffer `fb[c][r]`, 64 columns of 32 rows (R33) -/
  fb : Vector (Vector Bool 32) 64
  /-- the display-changed flag (R34) -/
  drawFlag : Bool
  /-- whether the last reset loaded its image (R37) -/
  loaded : Bool
  /-- the model's own: the parameters of R6, which no operation writes. DESIGN CHOICE, log 2. -/
  params : Params
  /-- the model's own: how many draws of `RND` have been used; the next one is `Config.draw draws`.
  DESIGN CHOICE, log 1. -/
  draws : Nat
  deriving DecidableEq, Repr

/-- Why a program image does not load (60_exceptions.md R205). -/
inductive LoadFailure where
  /-- the host could not supply an image -/
  | unreadable
  /-- the image is longer than 3584 bytes -/
  | tooLarge
  deriving DecidableEq, Repr

/-- The error conditions of 60_exceptions.md R200. In a step a condition ends the step with the state unchanged (R12, R209). -/
inductive Fault where
  /-- Raised by `step` on a word of R76, with the word and its address (R201). The spec's own error: safe. -/
  | unknownOpcode (op : Word) (pc : Word)
  /-- Raised by 2nnn with sp = 16 (R202). The spec's own error: safe. -/
  | stackOverflow
  /-- Raised by 00EE with sp = 0 (R203). The spec's own error: safe. -/
  | stackUnderflow
  /-- Raised by the fetch, Dxyn, Fx33, Fx55 and Fx65 at the first address above 0xFFF (R204). The spec's choice to reject
  and not to mask (D2): unsafe only for a CORE that masks, log 15. -/
  | memoryOutOfRange (address : Nat)
  /-- Raised by `reset(image)` only, never by a step (R205). The spec's own error: safe. -/
  | programLoadError (reason : LoadFailure)
  /-- Raised by Ex9E and ExA1 when V[x] > 15 (R206). A condition the spec adds (D11): unsafe only for a CORE that
  goes on, log 14. -/
  | keyIndexOutOfRange (value : Byte)
  deriving DecidableEq, Repr

/-- The model's verdict that a step has no meaning (40_cycle.md R92). A refusal errs toward unprovable: safe. -/
inductive Refusal where
  /-- Raised by no arm of this model: every instruction has its meaning. -/
  | notModelled (mnemonic : String)
  /-- Raised by 8xy4 to 8xyE on the words of R132 when `VF_OPERAND_POLICY = refuse`: safe. -/
  | vfOperand
  /-- Raised by `step` and `tick` while `loaded` is false (R243): safe. -/
  | notLoaded
  deriving DecidableEq, Repr

/-- The state after a successful reset with the default parameters and an image of length 0 (R38, R240, R241).
How a program comes to run from here: log 7. -/
def State.reset : State where
  mem := []
  pc := resetVector
  I := 0
  V := Vector.replicate 16 0
  stack := Vector.replicate 16 0
  sp := 0
  DT := 0
  ST := 0
  keys := Vector.replicate 16 false
  fb := Vector.replicate 64 (Vector.replicate 32 false)
  drawFlag := false
  loaded := true
  params := standardParams
  draws := 0

end Sys2Proof.Machine
end

