-- ==== Sys2Proof/Machine/Ops.lean ====
section
/-! DEFINITION. The named operations over memory, registers, stack, keys and framebuffer (00_scope.md R10, R11), raising a
condition (R12, 60_exceptions.md R209) and going on after one (R233). -/

namespace Sys2Proof.Machine

/-- What a meaning answers. -/
abbrev Result := Host.Outcome State Fault Refusal

/-- The next state of an outcome, if it is one. -/
def nextState? (o : Result) : Option State :=
  match o with
  | .next s => some s
  | .fault _ => none
  | .refused _ => none

/-- The condition of an outcome, if it is one. -/
def fault? (o : Result) : Option Fault :=
  match o with
  | .next _ => none
  | .fault c => some c
  | .refused _ => none

/-- The refusal of an outcome, if it is one. -/
def refusal? (o : Result) : Option Refusal :=
  match o with
  | .next _ => none
  | .fault _ => none
  | .refused r => some r

/-- The state after an operation that was started in `s`: a condition and a refusal leave `s` as it was (R12, R92, R209). -/
def stateAfter (o : Result) (s : State) : State :=
  match o with
  | .next t => t
  | .fault _ => s
  | .refused _ => s

/-! ### Memory (R11, R53, R56, R57) -/

/-- The last address of memory (R57). -/
def topAddress : Nat := 0xFFF

/-- The cell at an address. -/
def Memory.read : Memory → Nat → Byte
  | [], a => background a
  | (k, b) :: m, a => if k = a then b else Memory.read m a

/-- Puts a cell in its place by address. -/
def Memory.insertCell (c : Host.Cell) : Memory → Memory
  | [] => [c]
  | d :: m => if c.1 < d.1 then c :: d :: m else d :: Memory.insertCell c m

/-- Memory without a listed cell at an address. -/
def Memory.erase (m : Memory) (a : Nat) : Memory := m.filter (fun c => c.1 != a)

/-- Sets the cell at an address; a cell that holds what an unlisted address reads as is not listed. -/
def Memory.write (m : Memory) (a : Nat) (b : Byte) : Memory :=
  if b = background a then Memory.erase m a else Memory.insertCell (a, b) (Memory.erase m a)

/-- Sets the cells from an address on, in order. -/
def Memory.writeBytes : Memory → Nat → List Byte → Memory
  | m, _, [] => m
  | m, a, b :: bs => Memory.writeBytes (Memory.write m a b) (a + 1) bs

/-- The cell exists and does not hold what it would read as unlisted. -/
def Memory.cellOk (c : Host.Cell) : Bool := decide (c.1 ≤ topAddress) && c.2 != background c.1

/-- The addresses rise strictly. -/
def Memory.rising : Memory → Bool
  | [] => true
  | [_] => true
  | c :: d :: m => decide (c.1 < d.1) && Memory.rising (d :: m)

/-- The canonical form: strictly rising addresses, all of them cells of memory, no cell that need not be listed. -/
def Memory.wf (m : Memory) : Bool := Memory.rising m && m.all Memory.cellOk

/-- `MemRead(addr, 1)` at an address that has been checked (R11). -/
def State.memRead (s : State) (a : Nat) : Byte := s.mem.read a

/-- `MemWrite(addr, 1, v)` at an address that has been checked (R11). -/
def State.memWrite (s : State) (a : Nat) (b : Byte) : State := { s with mem := s.mem.write a b }

/-- `MemWrite` of several bytes at rising addresses from `a` on. -/
def State.memWriteBytes (s : State) (a : Nat) (bs : List Byte) : State := { s with mem := s.mem.writeBytes a bs }

/-- The first address above 0xFFF among `base`, `base + 1`, ..., `base + count - 1`, if there is one (R53, R204). -/
def firstOutOfRange (base count : Nat) : Option Nat :=
  ((List.range count).map (base + ·)).find? (fun a => decide (a > topAddress))

/-! ### Raising a condition, and going on after one -/

/-- `raise C(info)` (R12): the operation ends with the condition and no state is written. Nothing is saved, no vector is
taken, no mode changes (R209). -/
def raise (c : Fault) : Result := .fault c

/-- An instruction that accesses `count` bytes from `base` checks every address before it writes anything (R53). -/
def withRange (base count : Nat) (run : Result) : Result :=
  match firstOutOfRange base count with
  | some a => raise (.memoryOutOfRange a)
  | none => run

/-- The pc above 0xFFE that `choice` selects: every one of 0xFFF to 0xFFFF for some choice, and no other. -/
def pcPastMemory (choice : Nat) : Word := BitVec.ofNat 16 (0xFFF + choice % 0xF001)

/-- What the host's `skip` does to the state: `pc <- pc + 2` and nothing else (R233). Where 16 bits cannot hold the sum the
value is free among those whose next fetch faults, as R233 says of every pc past 0xFFE (log 20). -/
def State.skipFaulting (s : State) : State :=
  { s with pc := if s.pc.toNat + 2 < 2 ^ 16 then s.pc + 2 else pcPastMemory (Config.skipPastTop s.pc) }

/-! ### Registers (R10) -/

/-- `V[k]`. -/
def State.v (s : State) (k : Reg) : Byte := s.V.get k

/-- `V[k] <- b`. -/
def State.setV (s : State) (k : Reg) (b : Byte) : State := { s with V := s.V.set k b }

/-- The number of VF (R22). -/
def flagReg : Reg := 0xF

/-- `V[0xF] <- b`. -/
def State.setVF (s : State) (b : Byte) : State := s.setV flagReg b

/-- `V[k] <- b` for `k = from, from + 1, ...`, in order; a register number past 0xF does not exist and is left out. -/
def State.setVs : State → Nat → List Byte → State
  | s, _, [] => s
  | s, k, b :: bs => State.setVs (if h : k < 16 then s.setV ⟨k, h⟩ b else s) (k + 1) bs

/-- `I <- w`. -/
def State.setI (s : State) (w : Word) : State := { s with I := w }

/-- `pc <- target`. -/
def State.setPc (s : State) (target : Word) : State := { s with pc := target }

/-- `pc <- pc + 2`, the next instruction (R24). -/
def State.advance (s : State) : State := s.setPc (s.pc + 2)

/-- `pc <- pc + 4` if `cond`, else `pc <- pc + 2`; the skipped word is never fetched (R104; D20). -/
def State.skipIf (s : State) (cond : Bool) : State := if cond then s.setPc (s.pc + 4) else s.setPc (s.pc + 2)

/-- `DT <- b`. -/
def State.setDT (s : State) (b : Byte) : State := { s with DT := b }

/-- `ST <- b`. -/
def State.setST (s : State) (b : Byte) : State := { s with ST := b }

/-! ### Stack (R27, R28) -/

/-- `stack[k]`. -/
def State.stackEntry (s : State) (k : Fin 16) : Word := s.stack.get k

/-- A push writes `stack[sp]`, then increments sp; none when the stack is full. -/
def State.push (s : State) (w : Word) : Option State :=
  if h : s.sp.val < 16 then
    some { s with stack := s.stack.set s.sp.val w h, sp := ⟨s.sp.val + 1, Nat.succ_lt_succ h⟩ }
  else none

/-- A pop decrements sp, then reads `stack[sp]`, which keeps its value; none when the stack is empty. -/
def State.pop (s : State) : Option (Word × State) :=
  if h : 0 < s.sp.val then
    some (s.stack.get ⟨s.sp.val - 1, by omega⟩, { s with sp := ⟨s.sp.val - 1, by omega⟩ })
  else none

/-! ### Keys (R32) -/

/-- `keys[k]`. -/
def State.key (s : State) (k : Key) : Bool := s.keys.get k

/-- The smallest index of a pressed key (R157; D12). -/
def State.firstKey (s : State) : Option Key := (List.finRange 16).find? s.key

/-! ### Framebuffer (R33) -/

/-- `fb[c][r]`. -/
def State.pixel (s : State) (c : Col) (r : Row) : Bool := (s.fb.get c).get r

/-- `fb[c][r] <- b`. -/
def State.setPixel (s : State) (c : Col) (r : Row) (b : Bool) : State :=
  { s with fb := s.fb.set c ((s.fb.get c).set r b) }

/-- Every cell of `fb` becomes 0 (R100). -/
def State.clearFb (s : State) : State := { s with fb := Vector.replicate 64 (Vector.replicate 32 false) }

/-- `drawFlag <- true` (R34). -/
def State.raiseDrawFlag (s : State) : State := { s with drawFlag := true }

/-! ### Fetch (R50, R90) -/

/-- The opcode at pc: the byte at pc in bits 15 to 8, the next one in bits 7 to 0; a pc above 0xFFE raises MemoryOutOfRange
with the first byte outside memory (R90; D3). -/
def State.fetch (s : State) : Except Fault Word :=
  if s.pc.toNat > 0xFFE then .error (.memoryOutOfRange (max s.pc.toNat 0x1000))
  else .ok (wordOfBytes (s.memRead s.pc.toNat) (s.memRead (s.pc.toNat + 1)))

/-- The word stored at an address in the byte order of the fetch. -/
def State.storeWord (s : State) (a : Nat) (w : Word) : State := s.memWriteBytes a [hiByte w, loByte w]

/-- `s` ready to run the word `w` as its very next instruction: `w` stands where the fetch reads, the machine counts as loaded
(R243), and a pc that no fetch can read from (R90) becomes the reset vector. Log 7. -/
def State.withOpcode (s : State) (w : Word) : State :=
  let pc := if s.pc.toNat > 0xFFE then resetVector else s.pc
  { s with loaded := true, pc := pc }.storeWord pc.toNat w

/-- The next draw of `RND` (R95). -/
def State.nextDraw (s : State) : Byte := Config.draw s.draws

/-- One draw has been used. -/
def State.useDraw (s : State) : State := { s with draws := s.draws + 1 }

end Sys2Proof.Machine
end

