-- ==== Sys2Proof/Machine/Operands.lean ====
section
/-! DEFINITION. The operand forms of 30_encoding.md R73: key index, memory through I, decimal digits, sprite rows and
screen coordinates. A register, an immediate and an address stand in the instruction itself. -/

namespace Sys2Proof.Machine

/-- The key a register value selects; none for a value above 15 (R150). -/
def keyOf (value : Byte) : Option Key := if h : value.toNat < 16 then some ⟨value.toNat, h⟩ else none

/-- The address `I + k`, computed without reduction (R159). -/
def State.blockAddress (s : State) (k : Nat) : Nat := s.I.toNat + k

/-- How many registers Fx55 and Fx65 move: V[0] to V[x] (R73, R163). -/
def blockCount (x : Reg) : Nat := x.val + 1

/-- The register numbers 0 to x. -/
def regsUpTo (x : Reg) : List Reg := (List.finRange 16).filter (fun k => decide (k.val ≤ x.val))

/-- The values of V[0] to V[x] in order (R163). -/
def State.blockValues (s : State) (x : Reg) : List Byte := (regsUpTo x).map s.v

/-- The bytes at I + 0 to I + x in order (R164). -/
def State.blockBytes (s : State) (x : Reg) : List Byte :=
  (List.range (blockCount x)).map (fun k => s.memRead (s.blockAddress k))

/-- The decimal digits of a byte: hundreds, tens, units (R162). -/
def bcdDigits (value : Byte) : List Byte :=
  [BitVec.ofNat 8 (value.toNat / 100), BitVec.ofNat 8 (value.toNat / 10 % 10), BitVec.ofNat 8 (value.toNat % 10)]

/-- The address of the glyph a register value selects: the whole value times 5 (R161; against R73, log 32). -/
def glyphAddress (value : Byte) : Word := BitVec.ofNat 16 (5 * value.toNat)

/-- Bit `7 - b` of a sprite row, the pixel at column offset `b` (R140). -/
def spriteBit (row : Byte) (b : Nat) : Bool := row.getLsbD (7 - b)

/-- The column `(cx + b) mod 64` (R141, R142). -/
def wrapCol (cx : Byte) (b : Nat) : Col := Fin.ofNat 64 (cx.toNat + b)

/-- The row `(cy + r) mod 32` (R141, R142). -/
def wrapRow (cy : Byte) (r : Nat) : Row := Fin.ofNat 32 (cy.toNat + r)

/-- The target `V[0] + nnn` (R108). -/
def State.jumpTarget (s : State) (nnn : Word) : Word := BitVec.ofNat 16 ((s.v 0).toNat + nnn.toNat)

end Sys2Proof.Machine
end

