-- ==== Sys2Proof/Machine/Alu.lean ====
section
/-! DEFINITION. The arithmetic and logic instructions of 42_alu.md. -/

namespace Sys2Proof.Machine

/-- `V[x] <- result` and the next instruction: the shape of 8xy0 to 8xy3 (R120). -/
def writeReg (x : Reg) (result : Byte) (s : State) : Result := .next (s.setV x result).advance

/-- Under `VF_OPERAND_POLICY = refuse` a word whose result the order of the VF write decides has no meaning (R132). -/
def refusesVF (s : State) (named : List Reg) : Bool :=
  s.params.vfOperandPolicy == .refuse && named.contains flagReg

/-- `run`, unless R132 refuses the word that names these registers. -/
def withVfPolicy (named : List Reg) (s : State) (run : Result) : Result :=
  if refusesVF s named then .refused .vfOperand else run

/-- VF is written first, then the result is computed from the registers as they then are: 8xy5, 8xy6, 8xy7, 8xyE (R125). -/
def flagThenResult (x : Reg) (flag : Byte) (result : State → Byte) (s : State) : Result :=
  let t := s.setVF flag
  .next (t.setV x (result t)).advance

/-- 8xy0 (R121). -/
def execLdReg (x y : Reg) (s : State) : Result := writeReg x (s.v y) s

/-- 8xy1 (R122). -/
def execOrReg (x y : Reg) (s : State) : Result := writeReg x (s.v x ||| s.v y) s

/-- 8xy2 (R123). -/
def execAndReg (x y : Reg) (s : State) : Result := writeReg x (s.v x &&& s.v y) s

/-- 8xy3 (R124). -/
def execXorReg (x y : Reg) (s : State) : Result := writeReg x (s.v x ^^^ s.v y) s

/-- 8xy4 (R126): the result first, then VF (R125). -/
def execAddReg (x y : Reg) (s : State) : Result :=
  withVfPolicy [x, y] s
    (.next (((s.setV x (addResult (s.v x) (s.v y))).setVF (carryFlag (s.v x) (s.v y))).advance))

/-- 8xy5 (R127). -/
def execSubReg (x y : Reg) (s : State) : Result :=
  withVfPolicy [x, y] s
    (flagThenResult x (noBorrowFlag (s.v x) (s.v y)) (fun t => subResult (t.v x) (t.v y)) s)

/-- 8xy6 (R128); V[y] is not read, so only `x = 0xF` is a word of R132. -/
def execShr (x _y : Reg) (s : State) : Result :=
  withVfPolicy [x] s (flagThenResult x (shiftedOutRight (s.v x)) (fun t => shrResult (t.v x)) s)

/-- 8xy7 (R129). -/
def execSubnReg (x y : Reg) (s : State) : Result :=
  withVfPolicy [x, y] s
    (flagThenResult x (noBorrowFlag (s.v y) (s.v x)) (fun t => subResult (t.v y) (t.v x)) s)

/-- 8xyE (R130); V[y] is not read, so only `x = 0xF` is a word of R132. -/
def execShl (x _y : Reg) (s : State) : Result :=
  withVfPolicy [x] s (flagThenResult x (shiftedOutLeft (s.v x)) (fun t => shlResult (t.v x)) s)

end Sys2Proof.Machine
end

