-- ==== Sys2Proof/Machine/ControlFlow.lean ====
section
/-! DEFINITION. The control-flow instructions of 41_control_flow.md. -/

namespace Sys2Proof.Machine

/-- 00E0 (R100). -/
def execCls (s : State) : Result := .next s.clearFb.raiseDrawFlag.advance

/-- 00EE (R101). -/
def execRet (s : State) : Result :=
  match s.pop with
  | none => raise .stackUnderflow
  | some (entry, t) => .next (t.setPc (entry + 2))

/-- 1nnn (R102). -/
def execJp (nnn : Word) (s : State) : Result := .next (s.setPc nnn)

/-- 2nnn (R103). -/
def execCall (nnn : Word) (s : State) : Result :=
  match s.push s.pc with
  | none => raise .stackOverflow
  | some t => .next (t.setPc nnn)

/-- 3xnn (R104). -/
def execSeImm (x : Reg) (nn : Byte) (s : State) : Result := .next (s.skipIf (s.v x == nn))

/-- 4xnn (R105). -/
def execSneImm (x : Reg) (nn : Byte) (s : State) : Result := .next (s.skipIf (s.v x != nn))

/-- 5xy0 (R106). -/
def execSeReg (x y : Reg) (s : State) : Result := .next (s.skipIf (s.v x == s.v y))

/-- 9xy0 (R107). -/
def execSneReg (x y : Reg) (s : State) : Result := .next (s.skipIf (s.v x != s.v y))

/-- Bnnn (R108). -/
def execJpV0 (nnn : Word) (s : State) : Result := .next (s.setPc (s.jumpTarget nnn))

end Sys2Proof.Machine
end

