-- ==== Sys2Proof/Machine/Graphics.lean ====
section
/-! DEFINITION. The sprite draw of 43_graphics.md. -/

namespace Sys2Proof.Machine

/-- One set sprite bit on the cell `fb[c][q]`: a cell that was 1 is a collision, and the cell is XORed with 1 (R141). -/
def State.plot (s : State) (c : Col) (q : Row) : State :=
  let t := if s.pixel c q then s.setVF 1 else s
  t.setPixel c q (xor (t.pixel c q) true)

/-- The bits of one sprite row from column offset 0 to 7 (R140, R141). -/
def State.drawRow (s : State) (cx cy : Byte) (r : Nat) (row : Byte) : State :=
  (List.range 8).foldl
    (fun t b => if spriteBit row b then t.plot (wrapCol cx b) (wrapRow cy r) else t) s

/-- The rows 0 to n-1 of the sprite at I (R141). -/
def State.drawRows (s : State) (cx cy : Byte) (n : Nat) : State :=
  (List.range n).foldl (fun t r => t.drawRow cx cy r (t.memRead (t.blockAddress r))) s

/-- Dxyn (R141): the coordinates are read before VF is reset (D7), the addresses are checked before anything is
written. -/
def execDrw (x y : Reg) (n : Nat) (s : State) : Result :=
  withRange s.I.toNat n
    (.next (((s.setVF 0).drawRows (s.v x) (s.v y) n).raiseDrawFlag.advance))

end Sys2Proof.Machine
end

