-- ==== Sys2Proof/Machine/Immediate.lean ====
section
/-! DEFINITION. The immediate, index and random instructions of 45_immediate_index.md. -/

namespace Sys2Proof.Machine

/-- 6xnn (R180). -/
def execLdImm (x : Reg) (nn : Byte) (s : State) : Result := .next (s.setV x nn).advance

/-- 7xnn (R181): no flag. -/
def execAddImm (x : Reg) (nn : Byte) (s : State) : Result := .next (s.setV x (addResult (s.v x) nn)).advance

/-- Annn (R182). -/
def execLdI (nnn : Word) (s : State) : Result := .next (s.setI nnn).advance

/-- Cxnn with the draw `r` (R183). -/
def rndWith (r : Byte) (x : Reg) (nn : Byte) (s : State) : State := (s.setV x (r &&& nn)).advance

/-- Cxnn (R183): the draw is the step's free input (R95); it is used up. -/
def execRnd (x : Reg) (nn : Byte) (s : State) : Result := .next (rndWith s.nextDraw x nn s).useDraw

end Sys2Proof.Machine
end

