-- ==== Sys2Proof/Machine/InputTimer.lean ====
section
/-! DEFINITION. The key and timer instructions of 44_io_timer_memory.md, sections 1 to 3. -/

namespace Sys2Proof.Machine

/-- Skip on the key V[x] selects, when its state is `pressed`; a V[x] above 15 raises KeyIndexOutOfRange (R150). -/
def skipOnKey (x : Reg) (pressed : Bool) (s : State) : Result :=
  match keyOf (s.v x) with
  | none => raise (.keyIndexOutOfRange (s.v x))
  | some k => .next (s.skipIf (s.key k == pressed))

/-- Ex9E (R151). -/
def execSkp (x : Reg) (s : State) : Result := skipOnKey x true s

/-- ExA1 (R152). -/
def execSknp (x : Reg) (s : State) : Result := skipOnKey x false s

/-- Fx07 (R154). PRESUMED direction, log 9. -/
def execLdVxDT (x : Reg) (s : State) : Result := .next (s.setV x s.DT).advance

/-- Fx15 (R155). PRESUMED direction, log 9. -/
def execLdDTVx (x : Reg) (s : State) : Result := .next (s.setDT (s.v x)).advance

/-- Fx18 (R156). PRESUMED direction, log 9. -/
def execLdSTVx (x : Reg) (s : State) : Result := .next (s.setST (s.v x)).advance

/-- Fx0A (R157): with no key pressed the step is Waiting, the state unchanged and pc still at this word (R158; log 5). -/
def execLdVxK (x : Reg) (s : State) : Result :=
  match s.firstKey with
  | none => .next s
  | some k => .next (s.setV x (BitVec.ofNat 8 k.val)).advance

end Sys2Proof.Machine
end

