-- ==== Sys2Proof/Machine/MemoryBlock.lean ====
section
/-! DEFINITION. The index and memory-block instructions of 44_io_timer_memory.md, section 4. -/

namespace Sys2Proof.Machine

/-- Fx1E (R160): the sum is computed before any write, VF is written last. -/
def execAddIVx (x : Reg) (s : State) : Result :=
  .next (((s.setI (indexPlus s.I (s.v x).toNat)).setVF (indexOverflowFlag s.I (s.v x))).advance)

/-- Fx29 (R161, R57): five times V[x]. R73 says the value of x itself; the model follows R161. DESIGN CHOICE, log 32. -/
def execLdFVx (x : Reg) (s : State) : Result := .next (s.setI (glyphAddress (s.v x))).advance

/-- Fx33 (R162). -/
def execLdBVx (x : Reg) (s : State) : Result :=
  withRange s.I.toNat 3 (.next (s.memWriteBytes s.I.toNat (bcdDigits (s.v x))).advance)

/-- Fx55 (R163). -/
def execLdMemVx (x : Reg) (s : State) : Result :=
  withRange s.I.toNat (blockCount x)
    (.next ((s.memWriteBytes s.I.toNat (s.blockValues x)).setI (indexPlus s.I (blockCount x))).advance)

/-- Fx65 (R164). -/
def execLdVxMem (x : Reg) (s : State) : Result :=
  withRange s.I.toNat (blockCount x)
    (.next ((s.setVs 0 (s.blockBytes x)).setI (indexPlus s.I (blockCount x))).advance)

end Sys2Proof.Machine
end

