-- ==== Sys2Proof/Machine/Cycle.lean ====
section
/-! DEFINITION. The execute-one-cycle operation of 40_cycle.md. -/

namespace Sys2Proof.Machine

/-- The instruction the next cycle would run: the word at pc, fetched and dispatched (R90, R91). -/
def State.nextInstr (s : State) : Option Instr :=
  match s.fetch with
  | .ok op => dispatch s.params.unlistedOps op
  | .error _ => none

/-- One cycle (R90): fetch bounds, then UnknownOpcode, then the instruction's own rule (R208); no meaning while no program
is loaded (R243). -/
def runCycle (s : State) : Result :=
  if s.loaded then
    match s.fetch with
    | .error c => raise c
    | .ok op =>
      match dispatch s.params.unlistedOps op with
      | none => raise (.unknownOpcode op s.pc)
      | some i => exec i s
  else .refused .notLoaded

/-- The four outcomes of a step (R92). -/
inductive CycleOutcome where
  /-- `Ok(s')` -/
  | ok (t : State)
  /-- `Waiting`: Fx0A found no key pressed, the state is unchanged -/
  | waiting
  /-- `Error(c)`: the state is unchanged -/
  | error (c : Fault)
  /-- `Refused(reason)`: the state is unchanged -/
  | refused (r : Refusal)
  deriving DecidableEq, Repr

/-- The machine stands at an Fx0A word. -/
def State.atKeyWait (s : State) : Bool :=
  match s.nextInstr with
  | some (.ldVxK _) => true
  | _ => false

/-- Whether the next cycle is `Waiting`: a program is loaded, pc holds an Fx0A word and no key is pressed (R36, R157). -/
def State.waits (s : State) : Bool := s.loaded && s.atKeyWait && s.firstKey.isNone

/-- The cycle with its outcome as R92 names it; `runCycle` answers `next` with the unchanged state for `Waiting` (log 5). -/
def cycle (s : State) : CycleOutcome :=
  if s.waits then .waiting
  else
    match runCycle s with
    | .next t => .ok t
    | .fault c => .error c
    | .refused r => .refused r

/-- A run is halted at a jump to itself (R96). -/
def State.halted (s : State) : Bool := s.nextInstr == some (.jp s.pc)

end Sys2Proof.Machine
end

