-- ==== Sys2Proof/Machine/Step.lean ====
section
/-! DEFINITION. The step, and a state made ready to run a given word. -/

namespace Sys2Proof.Machine

/-- `step` (40_cycle.md R90). -/
def step (s : State) : Host.Outcome State Fault Refusal := runCycle s

/-- `s` with the instruction whose bits are `w` (`nbits` of them given) where `step` fetches its next one (log 7). -/
def State.withFetchWord (s : State) (nbits w : Nat) : State := s.withOpcode (tableWord nbits w)

end Sys2Proof.Machine
end

