-- ==== Sys2Proof/Machine/HostOps.lean ====
section
/-! DEFINITION. The other operations of the CORE (00_scope.md R14): tick (60_exceptions.md R220), reset(image)
(70_reset_and_hazards.md R240 to R243), and the host accesses (R230 to R234), alone and as one operation of a session. -/

namespace Sys2Proof.Machine

/-! ### tick (R220, R221) -/

/-- A timer counts down and stays at 0 (R29, R30). -/
def countDown (t : Byte) : Byte := if t.toNat > 0 then t - 1 else t

/-- Both timers, once (R220). -/
def State.countTimers (s : State) : State := { s with DT := countDown s.DT, ST := countDown s.ST }

/-- The tone event: raised exactly by a tick that takes ST from 1 to 0 (R221). -/
def State.tone (s : State) : Bool := s.ST == 1

/-- `tick`: the next state and whether the tone is raised; no meaning while no program is loaded (R220, R243). -/
def tick (s : State) : Host.Outcome (State × Bool) Fault Refusal :=
  if s.loaded then .next (s.countTimers, s.tone) else .refused .notLoaded

/-! ### reset(image) (R240 to R242) -/

/-- Where the program image begins (R5, R241). -/
def loadBase : Nat := 0x200

/-- The longest program image, 0x1000 - 0x200 bytes (R241). -/
def maxImage : Nat := 0x1000 - 0x200

/-- Every component at its reset value, with the font seeded and no image (R38, R240, R242). The parameters and the count of
draws are no components of R20 and stay (log 1, 2). -/
def State.cleared (s : State) : State :=
  { State.reset with
    mem := Memory.writeBytes [] 0 (fontBytes s.params.font)
    params := s.params
    draws := s.draws }

/-- Why an image does not load, if it does not (R242). -/
def loadFailure (image : Option (List Byte)) : Option LoadFailure :=
  match image with
  | none => some .unreadable
  | some bytes => if bytes.length > maxImage then some .tooLarge else none

/-- `reset(image)`: the state after it, and the condition it returns, if any. A failed load still clears the state and seeds
the font, and leaves `loaded` false (R240, R242). -/
def resetImage (image : Option (List Byte)) (s : State) : State × Option Fault :=
  match loadFailure image with
  | some reason => ({ s.cleared with loaded := false }, some (.programLoadError reason))
  | none => ({ s.cleared.memWriteBytes loadBase (image.getD []) with loaded := true }, none)

/-! ### Host accesses (R230 to R233) -/

/-- The host sets a key (R230). -/
def setKey (k : Key) (pressed : Bool) (s : State) : State := { s with keys := s.keys.set k pressed }

/-- The host clears drawFlag (R232). -/
def clearDrawFlag (s : State) : State := { s with drawFlag := false }

/-! ### One operation of a session (R14, R234) -/

/-- The operations the host may invoke (R14, R234). -/
inductive Operation where
  | step
  | tick
  /-- the image, or none when the host could not supply one (R242) -/
  | reset (image : Option (List Byte))
  | setKey (k : Key) (pressed : Bool)
  | read
  | clearDrawFlag
  | skip
  deriving DecidableEq, Repr

/-- What the host gets back (R234). -/
inductive Reply where
  | ok
  | waiting
  | error (c : Fault)
  | refused (r : Refusal)
  | tone (raised : Bool)
  | copy (s : State)
  deriving DecidableEq, Repr

/-- The CORE's state, and what the host knows: the condition its last step returned, while a skip of it is still open to the
host (R233). The CORE itself keeps no record of an error (R36). Log 21. -/
structure Session where
  core : State
  openError : Option Fault
  deriving DecidableEq, Repr

/-- A step as the host sees it (R92, R209). -/
def stepSession (σ : Session) : Session × Reply :=
  match cycle σ.core with
  | .ok t => (⟨t, none⟩, .ok)
  | .waiting => (⟨σ.core, none⟩, .waiting)
  | .error c => (⟨σ.core, some c⟩, .error c)
  | .refused r => (⟨σ.core, none⟩, .refused r)

/-- A tick as the host sees it (R220). -/
def tickSession (σ : Session) : Session × Reply :=
  match tick σ.core with
  | .next (t, raised) => ({ σ with core := t }, .tone raised)
  | .fault c => (σ, .error c)
  | .refused r => (σ, .refused r)

/-- A reset as the host sees it (R240, R242). -/
def resetSession (image : Option (List Byte)) (σ : Session) : Session × Reply :=
  match resetImage image σ.core with
  | (t, none) => (⟨t, none⟩, .ok)
  | (t, some c) => (⟨t, none⟩, .error c)

/-- A skip: available only after a step returned an error (R233). -/
def skipSession (σ : Session) : Option (Session × Reply) :=
  match σ.openError with
  | some _ => some (⟨σ.core.skipFaulting, none⟩, .ok)
  | none => none

/-- One operation of the interface; none when the operation is not available. -/
def perform (op : Operation) (σ : Session) : Option (Session × Reply) :=
  match op with
  | .step => some (stepSession σ)
  | .tick => some (tickSession σ)
  | .reset image => some (resetSession image σ)
  | .setKey k pressed => some ({ σ with core := Sys2Proof.Machine.setKey k pressed σ.core }, .ok)
  | .read => some (σ, .copy σ.core)
  | .clearDrawFlag => some ({ σ with core := Sys2Proof.Machine.clearDrawFlag σ.core }, .ok)
  | .skip => skipSession σ

/-- A list of operations, one after another (R14: no operation runs while another is in progress), with their replies. -/
def performAll : List Operation → Session → Option (Session × List Reply)
  | [], σ => some (σ, [])
  | op :: ops, σ =>
    match perform op σ with
    | none => none
    | some (τ, reply) =>
      match performAll ops τ with
      | none => none
      | some (υ, replies) => some (υ, reply :: replies)

/-- The code of a condition, the spec's own numbering (R200; D19). -/
def Fault.code : Fault → Nat
  | .unknownOpcode _ _ => 0
  | .stackOverflow => 1
  | .stackUnderflow => 2
  | .memoryOutOfRange _ => 3
  | .programLoadError _ => 4
  | .keyIndexOutOfRange _ => 5

end Sys2Proof.Machine
end

