-- ==== Sys2Proof/Safety.lean ====
section
/-! DEFINITION. The terms claims use: the components of the state and what a transition leaves unchanged, the invariants, and
the sessions a host can reach. -/

namespace Sys2Proof.Machine

/-! ### Components and frames -/

/-- A component of the state as R20 lists them, arrays cell by cell, and the model's own two fields. -/
inductive Component where
  | byte (a : Nat)
  | pc
  | I
  | v (k : Reg)
  | stack (k : Fin 16)
  | sp
  | DT
  | ST
  | key (k : Key)
  | pixel (c : Col) (r : Row)
  | drawFlag
  | loaded
  | params
  | draws
  deriving DecidableEq, Repr

/-- The component reads the same in both states. -/
def Component.Same (s t : State) : Component → Prop
  | .byte a => t.memRead a = s.memRead a
  | .pc => t.pc = s.pc
  | .I => t.I = s.I
  | .v k => t.v k = s.v k
  | .stack k => t.stackEntry k = s.stackEntry k
  | .sp => t.sp = s.sp
  | .DT => t.DT = s.DT
  | .ST => t.ST = s.ST
  | .key k => t.key k = s.key k
  | .pixel c r => t.pixel c r = s.pixel c r
  | .drawFlag => t.drawFlag = s.drawFlag
  | .loaded => t.loaded = s.loaded
  | .params => t.params = s.params
  | .draws => t.draws = s.draws

/-- From `s` to `t` every component but those named reads as before. -/
def ChangesOnly (named : Component → Prop) (s t : State) : Prop := ∀ c, ¬ named c → c.Same s t

/-- pc becomes `pc + k`, wherever 16 bits hold the sum (R8, R24, R25; log 19). A fetched word always stands where they do: its
pc is at most 0xFFE (R90). -/
def AdvancesBy (k : Nat) (s t : State) : Prop := s.pc.toNat + k < 2 ^ 16 → t.pc.toNat = s.pc.toNat + k

/-- The word decides its result without the order of the VF write, or the order is settled: R132 does not refuse it. -/
def PolicyRuns (s : State) (named : List Reg) : Prop :=
  s.params.vfOperandPolicy = .sequential ∨ flagReg ∉ named

/-- A set bit of the sprite at I, `n` rows tall and drawn at (V[x], V[y]), falls on the cell (c, q) (R140, R141). -/
def SpriteCovers (s : State) (x y : Reg) (n : Nat) (c : Col) (q : Row) : Prop :=
  ∃ r, r < n ∧ ∃ b, b < 8 ∧ (s.memRead (s.I.toNat + r)).getLsbD (7 - b) = true ∧
    c.val = ((s.v x).toNat + b) % 64 ∧ q.val = ((s.v y).toNat + r) % 32

/-- Every word that has the fixed bits of a row (`op & mask = match`, R91) is the instruction `i op`. -/
def Encodes (mask value : Word) (i : Word → Instr) : Prop := ∀ op : Word, op &&& mask = value → decodeWord op = some (i op)

/-! ### Invariants -/

/-- Memory is in its canonical form. -/
def MemCanonical (s : State) : Prop := Memory.wf s.mem = true

/-- Every stack entry in use is the address of a word that was fetched (R101: "stack[sp] is at most 0xFFE"). -/
def ReturnsFetchable (s : State) : Prop := ∀ k : Fin 16, k.val < s.sp.val → (s.stackEntry k).toNat ≤ 0xFFE

/-- pc is no larger than an instruction can write it (R25). -/
def PcReachable (s : State) : Prop := s.pc.toNat ≤ 0x10FE

/-- What every step keeps. -/
structure State.Inv (s : State) : Prop where
  mem : MemCanonical s
  returns : ReturnsFetchable s
  pc : PcReachable s

/-- What every operation of the interface keeps. A skip may take pc past 0x10FE (R233), so pc is left out; an error that is
still open to a skip is the error a step of the state returns (R95, R209, R210). -/
structure Session.Inv (σ : Session) : Prop where
  mem : MemCanonical σ.core
  returns : ReturnsFetchable σ.core
  error : ∀ c, σ.openError = some c → step σ.core = .fault c

/-! ### Runs -/

/-- A step that is safe: it is no error and no refusal. -/
def SafeStep (s : State) : Prop := ∃ t, step s = .next t

/-- The sessions a host can reach: after a reset of any state (R240, R244), then any available operations in any order
(R14, R94). -/
inductive Reached : Session → Prop where
  | reset (image : Option (List Byte)) (σ : Session) : Reached (resetSession image σ).1
  | op {σ τ : Session} {o : Operation} {reply : Reply} : Reached σ → perform o σ = some (τ, reply) → Reached τ

end Sys2Proof.Machine
end

