-- ==== Sys2Proof/Certificates/Slice0/Obligations.lean ====
section
/-! DEFINITION. The statements for the provers. Each one says what a rule of spec/ says of the machine, over every state; where a clause rests
on a decision of the spec (D<n>) or of the model (log <n>), its docstring names it. -/

open Sys2Proof Sys2Proof.Machine

/-! ### Encoding and dispatch -/

/-- Words written out from the encodings of `opcode_table.json` decode to the instructions they stand for, one or more of
each of the families 0 to F; 01E0 and 8128 are no instruction. -/
def Obligations.SampleWordsDecode : Prop :=
  decodeWord 0x00E0 = some .cls ∧ decodeWord 0x00EE = some .ret ∧ decodeWord 0x1234 = some (.jp 0x234) ∧
  decodeWord 0x2ABC = some (.call 0xABC) ∧ decodeWord 0x3A5C = some (.seImm 0xA 0x5C) ∧
  decodeWord 0x4B6D = some (.sneImm 0xB 0x6D) ∧
  decodeWord 0x5AB0 = some (.seReg 0xA 0xB) ∧ decodeWord 0x6A42 = some (.ldImm 0xA 0x42) ∧
  decodeWord 0x7006 = some (.addImm 0 6) ∧
  decodeWord 0x8AB4 = some (.addReg 0xA 0xB) ∧ decodeWord 0x830E = some (.shl 3 0) ∧
  decodeWord 0x9AB0 = some (.sneReg 0xA 0xB) ∧ decodeWord 0xA300 = some (.ldI 0x300) ∧
  decodeWord 0xBABC = some (.jpV0 0xABC) ∧ decodeWord 0xCA0F = some (.rnd 0xA 0x0F) ∧
  decodeWord 0xDAB7 = some (.drw 0xA 0xB 7) ∧ decodeWord 0xE59E = some (.skp 5) ∧ decodeWord 0xE5A1 = some (.sknp 5) ∧
  decodeWord 0xFA33 = some (.ldBVx 0xA) ∧ decodeWord 0xFA65 = some (.ldVxMem 0xA) ∧
  decodeWord 0x01E0 = none ∧ decodeWord 0x8128 = none

/-- Decode and encode agree: every well-formed instruction is what the decoder reads from its two bytes, with whatever follows
them left over. -/
def Obligations.DecodeOfEncodeIsTheInstruction : Prop :=
  ∀ (i : Instr) (rest : List Byte), i.WellFormed → decode (encodeBytes i ++ rest) = .ok (i, rest)

/-- The other direction: an instruction word has one reading, which encodes to that word and no other, and no operand is too
large for its field. -/
def Obligations.EncodeOfDecodeIsTheWord : Prop :=
  ∀ (op : Word) (i : Instr), decodeWord op = some i → i.WellFormed ∧ encode i = op

/-- The decoder reads from a word the instruction whose row of `opcode_table.json` the word matches, and none where no row
matches; no word matches two rows (R91, an inference the spec marks as derived). -/
def Obligations.DecoderAgreesWithOpcodeTable : Prop :=
  ∀ op : Word, (decodeWord op).map Instr.row = opcodeTable.find? (fun row => row.matchesWord op) ∧
    (opcodeTable.filter (fun row => row.matchesWord op)).length ≤ 1

/-- The words that are no instruction under `UNLISTED_OPS = include` are those the table of R76 lists (family 0 by C4 and
D28). -/
def Obligations.UnknownWordsAreTheListedOnes : Prop :=
  ∀ op : Word, dispatch .incl op = none ↔
    (opFamily op = 0x0 ∧ op ≠ 0x00E0 ∧ op ≠ 0x00EE) ∨
    (opFamily op = 0x5 ∧ opN op ≠ 0) ∨
    (opFamily op = 0x8 ∧ opN op ∈ [8, 9, 0xA, 0xB, 0xC, 0xD, 0xF]) ∨
    (opFamily op = 0x9 ∧ opN op ≠ 0) ∨
    (opFamily op = 0xE ∧ opNN op ≠ 0x9E ∧ opNN op ≠ 0xA1) ∨
    (opFamily op = 0xF ∧ opNN op ∉ ([0x07, 0x0A, 0x15, 0x18, 0x1E, 0x29, 0x33, 0x55, 0x65] : List Byte))

/-! ### The step -/

/-- The opcode is big-endian in memory (R50). When a program is loaded and the two bytes at pc decode to an instruction that
`UNLISTED_OPS` admits, the step is that instruction's effect on the very same state: pc still holds its address (R90, R24). -/
def Obligations.StepRunsDecodedInstruction : Prop :=
  (∀ s : State, s.pc.toNat ≤ 0xFFE → ∃ op, s.fetch = .ok op ∧
    op.toNat = (s.memRead s.pc.toNat).toNat * 256 + (s.memRead (s.pc.toNat + 1)).toNat) ∧
  (∀ (s : State) (i : Instr), s.loaded = true → s.pc.toNat ≤ 0xFFE →
    decode [s.memRead s.pc.toNat, s.memRead (s.pc.toNat + 1)] = .ok (i, []) → s.params.unlistedOps.admits i = true →
    step s = exec i s)

/-- A fetched word that dispatches to Unknown raises UnknownOpcode with the word and its address, and the state stays as it was
(R201); the words of R131, R153 and R165 dispatch to Unknown under either setting of `UNLISTED_OPS`. -/
def Obligations.UnknownWordRaises : Prop :=
  (∀ (s : State) (op : Word), s.loaded = true → s.fetch = .ok op → dispatch s.params.unlistedOps op = none →
    step s = .fault (.unknownOpcode op s.pc) ∧ stateAfter (step s) s = s) ∧
  (∀ (u : UnlistedOps) (op : Word),
    (opFamily op = 0x8 ∧ opN op ∈ [8, 9, 0xA, 0xB, 0xC, 0xD, 0xF]) ∨
    (opFamily op = 0xE ∧ opNN op ≠ 0x9E ∧ opNN op ≠ 0xA1) ∨
    (opFamily op = 0xF ∧ opNN op ∉ ([0x07, 0x0A, 0x15, 0x18, 0x1E, 0x29, 0x33, 0x55, 0x65] : List Byte)) →
    dispatch u op = none)

/-- Under `UNLISTED_OPS = refuse` every word of families 7, A and C raises UnknownOpcode and changes no state, and every other
word, 6xnn among them, dispatches as before (R184). -/
def Obligations.UnlistedFamiliesRaise : Prop :=
  (∀ (s : State) (op : Word), s.params.unlistedOps = .refuse → s.loaded = true → s.fetch = .ok op →
    (opFamily op = 0x7 ∨ opFamily op = 0xA ∨ opFamily op = 0xC) →
    step s = .fault (.unknownOpcode op s.pc) ∧ stateAfter (step s) s = s) ∧
  (∀ op : Word, opFamily op ≠ 0x7 → opFamily op ≠ 0xA → opFamily op ≠ 0xC → dispatch .refuse op = decodeWord op)

/-- A fetch at a pc above 0xFFE raises MemoryOutOfRange with the first byte outside memory, and changes nothing (R90, R25; the
spec's choice D3). -/
def Obligations.FetchOutOfRangeRaises : Prop :=
  ∀ s : State, s.loaded = true → s.pc.toNat > 0xFFE →
    step s = .fault (.memoryOutOfRange (max s.pc.toNat 0x1000)) ∧ stateAfter (step s) s = s

/-- While no program is loaded a step and a tick have no meaning and change nothing (R243, the spec's choice D36). -/
def Obligations.NothingRunsUnlessLoaded : Prop :=
  ∀ s : State, s.loaded = false →
    step s = .refused .notLoaded ∧ tick s = .refused .notLoaded ∧ stateAfter (step s) s = s

/-- A jump to its own address steps to itself (R96, the spec's choice D37). -/
def Obligations.HaltedStateStepsToItself : Prop :=
  ∀ s : State, s.loaded = true → s.halted = true → step s = .next s

/-- The four outcomes of R92 (the spec's choice D29): Waiting is an Fx0A word with no key pressed and a next state equal to the
old one; every other outcome is the step's own. -/
def Obligations.CycleOutcomesAreThoseOfTheStep : Prop :=
  ∀ s : State,
    (cycle s = .waiting ↔
      s.loaded = true ∧ (∃ x, s.nextInstr = some (.ldVxK x)) ∧ ∀ k, s.key k = false) ∧
    (cycle s = .waiting → step s = .next s) ∧
    (∀ t, cycle s = .ok t → step s = .next t) ∧
    (∀ c, cycle s = .error c ↔ step s = .fault c) ∧
    (∀ r, cycle s = .refused r ↔ step s = .refused r)

/-- The model refuses a step in two cases only (R92): no program is loaded, or VF_OPERAND_POLICY = refuse and the next
instruction is one of the words of R132. -/
def Obligations.RefusedInTwoCasesOnly : Prop :=
  ∀ (s : State) (r : Refusal), step s = .refused r →
    (r = .notLoaded ∧ s.loaded = false) ∨
    (r = .vfOperand ∧ s.params.vfOperandPolicy = .refuse ∧ ∃ x y : Reg,
      ((x = 0xF ∨ y = 0xF) ∧ (s.nextInstr = some (.addReg x y) ∨ s.nextInstr = some (.subReg x y) ∨
        s.nextInstr = some (.subnReg x y))) ∨
      (x = 0xF ∧ (s.nextInstr = some (.shr x y) ∨ s.nextInstr = some (.shl x y))))

/-- Every error of a step is one R200 lists for it, with the payload R200 to R206 give: who raises it, and on what. -/
def Obligations.StepErrorsAreOfTheirInstruction : Prop :=
  ∀ (s : State) (c : Fault), step s = .fault c →
    match c with
    | .unknownOpcode op pc => pc = s.pc ∧ s.fetch = .ok op ∧ dispatch s.params.unlistedOps op = none
    | .stackOverflow => s.sp = 16 ∧ ∃ nnn, s.nextInstr = some (.call nnn)
    | .stackUnderflow => s.sp = 0 ∧ s.nextInstr = some .ret
    | .memoryOutOfRange a => 0x1000 ≤ a ∧ a ≤ 0x1000E ∧
        ((s.pc.toNat > 0xFFE ∧ a = max s.pc.toNat 0x1000) ∨
          (s.pc.toNat ≤ 0xFFE ∧ a = max s.I.toNat 0x1000 ∧
            ((∃ x y n, s.nextInstr = some (.drw x y n)) ∨ ∃ x, s.nextInstr = some (.ldBVx x) ∨
              s.nextInstr = some (.ldMemVx x) ∨ s.nextInstr = some (.ldVxMem x))))
    | .programLoadError _ => False
    | .keyIndexOutOfRange v => 15 < v.toNat ∧
        ∃ x, v = s.v x ∧ (s.nextInstr = some (.skp x) ∨ s.nextInstr = some (.sknp x))

/-- An error is repeated by every later step until the state it rests on changes: neither the keys, the timers, drawFlag nor
the draw make a difference (R95, R210). -/
def Obligations.ErrorIsRepeated : Prop :=
  ∀ (s : State) (c : Fault) (ks : Vector Bool 16) (d e : Byte) (f : Bool) (n : Nat), step s = .fault c →
    step { s with keys := ks, DT := d, ST := e, drawFlag := f, draws := n } = .fault c

/-- Only Cxnn reads the draw (R95): every other instruction does the same whichever draw comes next. -/
def Obligations.OnlyRandomReadsTheDraw : Prop :=
  ∀ (i : Instr) (s : State) (n : Nat), (∀ x nn, i ≠ .rnd x nn) →
    exec i { s with draws := n } =
      match exec i s with
      | .next t => .next { t with draws := n }
      | .fault c => .fault c
      | .refused r => .refused r

/-! ### Control flow (41_control_flow.md) -/

/-- 00E0 (R100): every cell 0, drawFlag true, whatever was on the screen. -/
def Obligations.ClearScreen : Prop :=
  Encodes 0xFFFF 0x00E0 (fun _ => .cls) ∧
  ∀ s : State, ∃ t, exec .cls s = .next t ∧ (∀ c r, t.pixel c r = false) ∧ t.drawFlag = true ∧ AdvancesBy 2 s t ∧
    ChangesOnly (fun k => k = .drawFlag ∨ k = .pc ∨ ∃ c r, k = .pixel c r) s t

/-- 00EE (R101): sp goes down by one, pc becomes the popped entry plus 2, the entry stays; with an empty stack it raises
StackUnderflow and changes nothing. -/
def Obligations.ReturnFromSubroutine : Prop :=
  Encodes 0xFFFF 0x00EE (fun _ => .ret) ∧
  (∀ (s : State) (k : Fin 16), s.sp.val = k.val + 1 → ∃ t, exec .ret s = .next t ∧ t.sp.val = k.val ∧
    ((s.stackEntry k).toNat + 2 < 2 ^ 16 → t.pc.toNat = (s.stackEntry k).toNat + 2) ∧
    ChangesOnly (fun c => c = .sp ∨ c = .pc) s t) ∧
  (∀ s : State, s.sp = 0 → exec .ret s = .fault .stackUnderflow ∧ stateAfter (exec .ret s) s = s)

/-- 1nnn (R102): pc becomes nnn, zero-extended. -/
def Obligations.JumpToAddress : Prop :=
  Encodes 0xF000 0x1000 (fun op => .jp (opNNN op)) ∧
  ∀ (s : State) (nnn : Word), ∃ t, exec (.jp nnn) s = .next t ∧ t.pc = nnn ∧ ChangesOnly (· = .pc) s t

/-- 2nnn (R103): the address of the call is pushed and pc becomes the target; with a full stack it raises StackOverflow and
changes nothing. -/
def Obligations.CallSubroutine : Prop :=
  Encodes 0xF000 0x2000 (fun op => .call (opNNN op)) ∧
  (∀ (s : State) (nnn : Word) (k : Fin 16), s.sp.val = k.val → ∃ t, exec (.call nnn) s = .next t ∧
    t.stackEntry k = s.pc ∧ t.sp.val = k.val + 1 ∧ t.pc = nnn ∧
    ChangesOnly (fun c => c = .stack k ∨ c = .sp ∨ c = .pc) s t) ∧
  (∀ (s : State) (nnn : Word), s.sp = 16 →
    exec (.call nnn) s = .fault .stackOverflow ∧ stateAfter (exec (.call nnn) s) s = s)

/-- 3xnn and 4xnn (R104, R105): pc + 4 when V[x] equals (differs from) nn, else pc + 2, whatever the word in between is
(D20). -/
def Obligations.SkipOnImmediate : Prop :=
  Encodes 0xF000 0x3000 (fun op => .seImm (opX op) (opNN op)) ∧
  Encodes 0xF000 0x4000 (fun op => .sneImm (opX op) (opNN op)) ∧
  ∀ (s : State) (x : Reg) (nn : Byte),
    (∃ t, exec (.seImm x nn) s = .next t ∧ AdvancesBy (if s.v x = nn then 4 else 2) s t ∧ ChangesOnly (· = .pc) s t) ∧
    (∃ t, exec (.sneImm x nn) s = .next t ∧ AdvancesBy (if s.v x ≠ nn then 4 else 2) s t ∧ ChangesOnly (· = .pc) s t)

/-- 5xy0 and 9xy0 (R106, R107): pc + 4 when V[x] equals (differs from) V[y], else pc + 2; with another low nibble the word is no
instruction. -/
def Obligations.SkipOnRegister : Prop :=
  Encodes 0xF00F 0x5000 (fun op => .seReg (opX op) (opY op)) ∧
  Encodes 0xF00F 0x9000 (fun op => .sneReg (opX op) (opY op)) ∧
  (∀ op : Word, opFamily op = 0x5 ∨ opFamily op = 0x9 → opN op ≠ 0 → decodeWord op = none) ∧
  ∀ (s : State) (x y : Reg),
    (∃ t, exec (.seReg x y) s = .next t ∧ AdvancesBy (if s.v x = s.v y then 4 else 2) s t ∧ ChangesOnly (· = .pc) s t) ∧
    (∃ t, exec (.sneReg x y) s = .next t ∧ AdvancesBy (if s.v x ≠ s.v y then 4 else 2) s t ∧ ChangesOnly (· = .pc) s t)

/-- Bnnn (R108): pc = V[0] + nnn, not reduced and not masked (the spec's choice D3). -/
def Obligations.JumpPlusV0 : Prop :=
  Encodes 0xF000 0xB000 (fun op => .jpV0 (opNNN op)) ∧
  ∀ (s : State) (nnn : Word), nnn.toNat ≤ 0xFFF → ∃ t, exec (.jpV0 nnn) s = .next t ∧
    t.pc.toNat = (s.v 0).toNat + nnn.toNat ∧ ChangesOnly (· = .pc) s t

/-- A call and then a return come back to the word after the call, with the same sp (W5, C11). -/
def Obligations.CallThenReturn : Prop :=
  ∀ (s t : State) (nnn : Word), s.pc.toNat ≤ 0xFFE → exec (.call nnn) s = .next t →
    ∃ u, exec .ret t = .next u ∧ u.pc.toNat = s.pc.toNat + 2 ∧ u.sp = s.sp

/-! ### Arithmetic and logic (42_alu.md) -/

/-- 8xy0 to 8xy3 (R121 to R124): copy, OR, AND, XOR; no flag. -/
def Obligations.CopyAndLogic : Prop :=
  Encodes 0xF00F 0x8000 (fun op => .ldReg (opX op) (opY op)) ∧
  Encodes 0xF00F 0x8001 (fun op => .orReg (opX op) (opY op)) ∧
  Encodes 0xF00F 0x8002 (fun op => .andReg (opX op) (opY op)) ∧
  Encodes 0xF00F 0x8003 (fun op => .xorReg (opX op) (opY op)) ∧
  ∀ (s : State) (x y : Reg),
    (∃ t, exec (.ldReg x y) s = .next t ∧ t.v x = s.v y ∧ AdvancesBy 2 s t ∧
      ChangesOnly (fun c => c = .v x ∨ c = .pc) s t) ∧
    (∃ t, exec (.orReg x y) s = .next t ∧ t.v x = s.v x ||| s.v y ∧ AdvancesBy 2 s t ∧
      ChangesOnly (fun c => c = .v x ∨ c = .pc) s t) ∧
    (∃ t, exec (.andReg x y) s = .next t ∧ t.v x = s.v x &&& s.v y ∧ AdvancesBy 2 s t ∧
      ChangesOnly (fun c => c = .v x ∨ c = .pc) s t) ∧
    (∃ t, exec (.xorReg x y) s = .next t ∧ t.v x = s.v x ^^^ s.v y ∧ AdvancesBy 2 s t ∧
      ChangesOnly (fun c => c = .v x ∨ c = .pc) s t)

/-- 8xy4 (R126): the sum modulo 256, then VF = 1 iff the unreduced sum exceeds 255. That VF ends with the flag when x = 0xF is the
sequential reading (the spec's decision D6, log 11); under VF_OPERAND_POLICY = refuse the words of R132 are left out. -/
def Obligations.AddRegisters : Prop :=
  Encodes 0xF00F 0x8004 (fun op => .addReg (opX op) (opY op)) ∧
  ∀ (s : State) (x y : Reg), PolicyRuns s [x, y] → ∃ t, exec (.addReg x y) s = .next t ∧
    (x ≠ 0xF → (t.v x).toNat = ((s.v x).toNat + (s.v y).toNat) % 256) ∧
    t.v 0xF = (if (s.v x).toNat + (s.v y).toNat > 255 then 1 else 0) ∧
    AdvancesBy 2 s t ∧ ChangesOnly (fun c => c = .v x ∨ c = .v 0xF ∨ c = .pc) s t

/-- 8xy5 (R127): VF = 1 iff V[x] >= V[y], and then V[x] - V[y] modulo 256 of the registers as the VF write left them. That order,
which decides the result when x or y is 0xF, is the sequential reading (the spec's decision D6, log 11); under
VF_OPERAND_POLICY = refuse the words of R132 are left out. -/
def Obligations.SubtractRegisters : Prop :=
  Encodes 0xF00F 0x8005 (fun op => .subReg (opX op) (opY op)) ∧
  ∀ (s : State) (x y : Reg) (flag a b : Byte), PolicyRuns s [x, y] →
    flag = (if (s.v x).toNat ≥ (s.v y).toNat then 1 else 0) →
    a = (if x = 0xF then flag else s.v x) → b = (if y = 0xF then flag else s.v y) →
    ∃ t, exec (.subReg x y) s = .next t ∧ (t.v x).toNat = (a.toNat + 256 - b.toNat) % 256 ∧
      (x ≠ 0xF → t.v 0xF = flag) ∧
      AdvancesBy 2 s t ∧ ChangesOnly (fun c => c = .v x ∨ c = .v 0xF ∨ c = .pc) s t

/-- 8xy7 (R129): VF = 1 iff V[y] >= V[x], and then V[y] - V[x] modulo 256 of the registers as the VF write left them. That order,
which decides the result when x or y is 0xF, is the sequential reading (the spec's decision D6, log 11); under
VF_OPERAND_POLICY = refuse the words of R132 are left out. -/
def Obligations.SubtractReversed : Prop :=
  Encodes 0xF00F 0x8007 (fun op => .subnReg (opX op) (opY op)) ∧
  ∀ (s : State) (x y : Reg) (flag a b : Byte), PolicyRuns s [x, y] →
    flag = (if (s.v y).toNat ≥ (s.v x).toNat then 1 else 0) →
    a = (if x = 0xF then flag else s.v x) → b = (if y = 0xF then flag else s.v y) →
    ∃ t, exec (.subnReg x y) s = .next t ∧ (t.v x).toNat = (b.toNat + 256 - a.toNat) % 256 ∧
      (x ≠ 0xF → t.v 0xF = flag) ∧
      AdvancesBy 2 s t ∧ ChangesOnly (fun c => c = .v x ∨ c = .v 0xF ∨ c = .pc) s t

/-- 8xy6 and 8xyE (R128, R130): VF = the bit shifted out, then V[x] shifted by one as the VF write left it; V[y] is not
read. That order, which decides the result when x = 0xF, is the sequential reading (the spec's decision D6, log 11); under
VF_OPERAND_POLICY = refuse the words of R132 are left out. -/
def Obligations.ShiftByOne : Prop :=
  Encodes 0xF00F 0x8006 (fun op => .shr (opX op) (opY op)) ∧
  Encodes 0xF00F 0x800E (fun op => .shl (opX op) (opY op)) ∧
  ∀ (s : State) (x y : Reg), PolicyRuns s [x] →
    (∃ t, exec (.shr x y) s = .next t ∧
      (x ≠ 0xF → (t.v x).toNat = (s.v x).toNat / 2 ∧ (t.v 0xF).toNat = (s.v x).toNat % 2) ∧
      (x = 0xF → t.v 0xF = 0) ∧
      AdvancesBy 2 s t ∧ ChangesOnly (fun c => c = .v x ∨ c = .v 0xF ∨ c = .pc) s t) ∧
    (∃ t, exec (.shl x y) s = .next t ∧
      (x ≠ 0xF → (t.v x).toNat = (s.v x).toNat * 2 % 256 ∧ (t.v 0xF).toNat = (s.v x).toNat / 128) ∧
      (x = 0xF → (t.v 0xF).toNat = (s.v 0xF).toNat / 128 * 2) ∧
      AdvancesBy 2 s t ∧ ChangesOnly (fun c => c = .v x ∨ c = .v 0xF ∨ c = .pc) s t)

/-- Under VF_OPERAND_POLICY = refuse, of the words 8xy0 to 8xyE exactly those R132 lists are refused, with no state changed: 8xy4,
8xy5 and 8xy7 with x or y = 0xF, 8xy6 and 8xyE with x = 0xF; under `sequential` none is (the spec's decision D6, log 11). -/
def Obligations.VfOperandsRefused : Prop :=
  ∀ (s : State) (x y : Reg),
    (s.params.vfOperandPolicy = .refuse → (x = 0xF ∨ y = 0xF) → ∀ i ∈ [Instr.addReg x y, .subReg x y, .subnReg x y],
      exec i s = .refused .vfOperand ∧ stateAfter (exec i s) s = s) ∧
    (s.params.vfOperandPolicy = .refuse → x = 0xF → ∀ i ∈ [Instr.shr x y, .shl x y],
      exec i s = .refused .vfOperand ∧ stateAfter (exec i s) s = s) ∧
    (s.params.vfOperandPolicy = .sequential ∨ (x ≠ 0xF ∧ y ≠ 0xF) →
      ∀ i ∈ [Instr.addReg x y, .subReg x y, .subnReg x y], ∃ t, exec i s = .next t) ∧
    (s.params.vfOperandPolicy = .sequential ∨ x ≠ 0xF → ∀ i ∈ [Instr.shr x y, .shl x y], ∃ t, exec i s = .next t) ∧
    (∀ i ∈ [Instr.ldReg x y, .orReg x y, .andReg x y, .xorReg x y], ∃ t, exec i s = .next t)

/-! ### Immediates, I and the draw (45_immediate_index.md) -/

/-- 6xnn (R180): nn in V[x], and pc 2 further. -/
def Obligations.LoadImmediate : Prop :=
  Encodes 0xF000 0x6000 (fun op => .ldImm (opX op) (opNN op)) ∧
  ∀ (s : State) (x : Reg) (nn : Byte), ∃ t, exec (.ldImm x nn) s = .next t ∧ t.v x = nn ∧ AdvancesBy 2 s t ∧
    ChangesOnly (fun c => c = .v x ∨ c = .pc) s t

/-- 7xnn and Annn (R181, R182; from general knowledge by D9, log 10): an addition modulo 256 that writes no flag, and a load
of I. -/
def Obligations.AddImmediateAndLoadIndex : Prop :=
  Encodes 0xF000 0x7000 (fun op => .addImm (opX op) (opNN op)) ∧
  Encodes 0xF000 0xA000 (fun op => .ldI (opNNN op)) ∧
  (∀ (s : State) (x : Reg) (nn : Byte), ∃ t, exec (.addImm x nn) s = .next t ∧
    (t.v x).toNat = ((s.v x).toNat + nn.toNat) % 256 ∧ AdvancesBy 2 s t ∧
    ChangesOnly (fun c => c = .v x ∨ c = .pc) s t) ∧
  (∀ (s : State) (nnn : Word), ∃ t, exec (.ldI nnn) s = .next t ∧ t.I = nnn ∧ AdvancesBy 2 s t ∧
    ChangesOnly (fun c => c = .I ∨ c = .pc) s t)

/-- Cxnn (R183; from general knowledge by D9, log 10): the draw AND nn, whatever the draw is. That the draw is the one the
counter names, and that it is then used up, is the model's choice (log 1). -/
def Obligations.RandomMasked : Prop :=
  Encodes 0xF000 0xC000 (fun op => .rnd (opX op) (opNN op)) ∧
  ∀ (s : State) (x : Reg) (nn : Byte), ∃ t, exec (.rnd x nn) s = .next t ∧ t.v x = Config.draw s.draws &&& nn ∧
    (t.v x).toNat ≤ nn.toNat ∧ t.draws = s.draws + 1 ∧ AdvancesBy 2 s t ∧
    ChangesOnly (fun c => c = .v x ∨ c = .pc ∨ c = .draws) s t

/-! ### The sprite draw (43_graphics.md) -/

/-- Dxyn (R141, R142, R144; decisions D7, D8, D34): with the sprite's bytes in memory, or no rows at all, every cell a set bit
falls on is inverted and no other; VF is 1 iff one of them was 1; drawFlag is set. -/
def Obligations.DrawSprite : Prop :=
  Encodes 0xF000 0xD000 (fun op => .drw (opX op) (opY op) (opN op)) ∧
  ∀ (s : State) (x y : Reg) (n : Nat), n ≤ 15 → (n = 0 ∨ s.I.toNat + n ≤ 0x1000) →
    ∃ t, exec (.drw x y n) s = .next t ∧
      (∀ c q, (SpriteCovers s x y n c q → t.pixel c q = !s.pixel c q) ∧
        (¬ SpriteCovers s x y n c q → t.pixel c q = s.pixel c q)) ∧
      ((∃ c q, SpriteCovers s x y n c q ∧ s.pixel c q = true) → t.v 0xF = 1) ∧
      ((¬ ∃ c q, SpriteCovers s x y n c q ∧ s.pixel c q = true) → t.v 0xF = 0) ∧
      t.drawFlag = true ∧ AdvancesBy 2 s t ∧
      ChangesOnly (fun k => k = .v 0xF ∨ k = .drawFlag ∨ k = .pc ∨ ∃ c q, k = .pixel c q) s t

/-- Dxyn with a sprite that leaves memory raises MemoryOutOfRange at its first byte outside, and draws nothing (R141; D2, D4,
D5). -/
def Obligations.DrawOutOfRangeRaises : Prop :=
  ∀ (s : State) (x y : Reg) (n : Nat), 0 < n → s.I.toNat + n > 0x1000 →
    exec (.drw x y n) s = .fault (.memoryOutOfRange (max s.I.toNat 0x1000)) ∧ stateAfter (exec (.drw x y n) s) s = s

/-- Drawing the same sprite twice at the same place restores the framebuffer, and the second draw collides iff some cell the
sprite covers was clear before the first; where all of them were clear the first does not collide (W6; the place is the same when
the coordinates are: V[0xF] may be one). -/
def Obligations.DrawTwiceRestores : Prop :=
  ∀ (s t u : State) (x y : Reg) (n : Nat), n ≤ 15 → exec (.drw x y n) s = .next t → t.v x = s.v x → t.v y = s.v y →
    exec (.drw x y n) t = .next u →
    (∀ c q, u.pixel c q = s.pixel c q) ∧
    ((∃ c q, SpriteCovers s x y n c q ∧ s.pixel c q = false) → u.v 0xF = 1) ∧
    ((∀ c q, SpriteCovers s x y n c q → s.pixel c q = true) → u.v 0xF = 0) ∧
    ((∀ c q, SpriteCovers s x y n c q → s.pixel c q = false) → t.v 0xF = 0)

/-! ### Keys and timers (44_io_timer_memory.md) -/

/-- Ex9E and ExA1 (R151, R152): the key V[x] selects, 0 to 15, decides between pc + 4 and pc + 2. -/
def Obligations.SkipOnKey : Prop :=
  Encodes 0xF0FF 0xE09E (fun op => .skp (opX op)) ∧
  Encodes 0xF0FF 0xE0A1 (fun op => .sknp (opX op)) ∧
  ∀ (s : State) (x : Reg) (k : Key), (s.v x).toNat = k.val →
    (∃ t, exec (.skp x) s = .next t ∧ AdvancesBy (if s.key k = true then 4 else 2) s t ∧ ChangesOnly (· = .pc) s t) ∧
    (∃ t, exec (.sknp x) s = .next t ∧ AdvancesBy (if s.key k = false then 4 else 2) s t ∧ ChangesOnly (· = .pc) s t)

/-- A key value above 15 raises KeyIndexOutOfRange with that value and changes nothing (R150, R206; the spec's choice D11). -/
def Obligations.KeyIndexAbove15Raises : Prop :=
  ∀ (s : State) (x : Reg), 15 < (s.v x).toNat →
    (exec (.skp x) s = .fault (.keyIndexOutOfRange (s.v x)) ∧ stateAfter (exec (.skp x) s) s = s) ∧
    (exec (.sknp x) s = .fault (.keyIndexOutOfRange (s.v x)) ∧ stateAfter (exec (.sknp x) s) s = s)

/-- Fx07, Fx15 and Fx18 (R154 to R156; the directions from general knowledge by D30, log 9). -/
def Obligations.TimerMoves : Prop :=
  Encodes 0xF0FF 0xF007 (fun op => .ldVxDT (opX op)) ∧
  Encodes 0xF0FF 0xF015 (fun op => .ldDTVx (opX op)) ∧
  Encodes 0xF0FF 0xF018 (fun op => .ldSTVx (opX op)) ∧
  ∀ (s : State) (x : Reg),
    (∃ t, exec (.ldVxDT x) s = .next t ∧ t.v x = s.DT ∧ AdvancesBy 2 s t ∧
      ChangesOnly (fun c => c = .v x ∨ c = .pc) s t) ∧
    (∃ t, exec (.ldDTVx x) s = .next t ∧ t.DT = s.v x ∧ AdvancesBy 2 s t ∧
      ChangesOnly (fun c => c = .DT ∨ c = .pc) s t) ∧
    (∃ t, exec (.ldSTVx x) s = .next t ∧ t.ST = s.v x ∧ AdvancesBy 2 s t ∧
      ChangesOnly (fun c => c = .ST ∨ c = .pc) s t)

/-- Fx0A with a key pressed (R157; the lowest one by D12): V[x] is the smallest index of a pressed key. -/
def Obligations.KeyWaitEnds : Prop :=
  Encodes 0xF0FF 0xF00A (fun op => .ldVxK (opX op)) ∧
  ∀ (s : State) (x : Reg) (k : Key), s.key k = true → (∀ j, j < k → s.key j = false) →
    ∃ t, exec (.ldVxK x) s = .next t ∧ (t.v x).toNat = k.val ∧ AdvancesBy 2 s t ∧
      ChangesOnly (fun c => c = .v x ∨ c = .pc) s t

/-- Fx0A with no key pressed waits: the state is unchanged and pc stays at the word (R157, R158; the next state stands for
`Waiting` by log 5). -/
def Obligations.KeyWaitWaits : Prop :=
  ∀ (s : State) (x : Reg), (∀ k, s.key k = false) → exec (.ldVxK x) s = .next s

/-! ### I and the memory block (44_io_timer_memory.md) -/

/-- Fx1E (R160; D31, D32): I + V[x] modulo 2^16, then VF = 1 iff the unreduced sum exceeds 0xFFF. -/
def Obligations.AddToIndex : Prop :=
  Encodes 0xF0FF 0xF01E (fun op => .addIVx (opX op)) ∧
  ∀ (s : State) (x : Reg), ∃ t, exec (.addIVx x) s = .next t ∧ t.I.toNat = (s.I.toNat + (s.v x).toNat) % 2 ^ 16 ∧
    t.v 0xF = (if s.I.toNat + (s.v x).toNat > 0xFFF then 1 else 0) ∧ AdvancesBy 2 s t ∧
    ChangesOnly (fun c => c = .I ∨ c = .v 0xF ∨ c = .pc) s t

/-- Fx29: I = 5 * V[x], the whole register, as R161 and R57 say. R73 says that Fx29 uses the value of x itself; that R161 is the
one to follow is the model's choice (log 32). -/
def Obligations.PointAtGlyph : Prop :=
  Encodes 0xF0FF 0xF029 (fun op => .ldFVx (opX op)) ∧
  ∀ (s : State) (x : Reg), ∃ t, exec (.ldFVx x) s = .next t ∧ t.I.toNat = 5 * (s.v x).toNat ∧ AdvancesBy 2 s t ∧
    ChangesOnly (fun c => c = .I ∨ c = .pc) s t

/-- Fx33 (R162): hundreds, tens and units at I, I + 1 and I + 2, I unchanged; an address above 0xFFF raises MemoryOutOfRange
at the first such address and writes nothing (R159, the spec's choices D2, D4 and D5; log 15). -/
def Obligations.StoreDecimalDigits : Prop :=
  Encodes 0xF0FF 0xF033 (fun op => .ldBVx (opX op)) ∧
  (∀ (s : State) (x : Reg), s.I.toNat + 2 ≤ 0xFFF → ∃ t, exec (.ldBVx x) s = .next t ∧
    (t.memRead (s.blockAddress 0)).toNat = (s.v x).toNat / 100 ∧
    (t.memRead (s.blockAddress 1)).toNat = (s.v x).toNat / 10 % 10 ∧
    (t.memRead (s.blockAddress 2)).toNat = (s.v x).toNat % 10 ∧
    AdvancesBy 2 s t ∧ ChangesOnly (fun c => c = .pc ∨ ∃ k, k ≤ 2 ∧ c = .byte (s.blockAddress k)) s t) ∧
  (∀ (s : State) (x : Reg), s.I.toNat + 2 > 0xFFF →
    exec (.ldBVx x) s = .fault (.memoryOutOfRange (max s.I.toNat 0x1000)) ∧ stateAfter (exec (.ldBVx x) s) s = s)

/-- Fx55 (R163): V[0] to V[x] at I to I + x, then I = I + x + 1; an address above 0xFFF raises MemoryOutOfRange at the first
such address and writes nothing (R159, the spec's choices D2, D4 and D5; log 15). -/
def Obligations.StoreRegisters : Prop :=
  Encodes 0xF0FF 0xF055 (fun op => .ldMemVx (opX op)) ∧
  (∀ (s : State) (x : Reg), s.I.toNat + x.val ≤ 0xFFF → ∃ t, exec (.ldMemVx x) s = .next t ∧
    (∀ k : Reg, k ≤ x → t.memRead (s.blockAddress k.val) = s.v k) ∧ t.I.toNat = s.I.toNat + x.val + 1 ∧
    AdvancesBy 2 s t ∧
    ChangesOnly (fun c => c = .I ∨ c = .pc ∨ ∃ k, k ≤ x.val ∧ c = .byte (s.blockAddress k)) s t) ∧
  (∀ (s : State) (x : Reg), s.I.toNat + x.val > 0xFFF →
    exec (.ldMemVx x) s = .fault (.memoryOutOfRange (max s.I.toNat 0x1000)) ∧ stateAfter (exec (.ldMemVx x) s) s = s)

/-- Fx65 (R164): V[0] to V[x] from I to I + x, then I = I + x + 1; an address above 0xFFF raises MemoryOutOfRange at the first
such address and writes nothing (R159, the spec's choices D2, D4 and D5; log 15). -/
def Obligations.LoadRegisters : Prop :=
  Encodes 0xF0FF 0xF065 (fun op => .ldVxMem (opX op)) ∧
  (∀ (s : State) (x : Reg), s.I.toNat + x.val ≤ 0xFFF → ∃ t, exec (.ldVxMem x) s = .next t ∧
    (∀ k : Reg, k ≤ x → t.v k = s.memRead (s.blockAddress k.val)) ∧ t.I.toNat = s.I.toNat + x.val + 1 ∧
    AdvancesBy 2 s t ∧ ChangesOnly (fun c => c = .I ∨ c = .pc ∨ ∃ k, k ≤ x ∧ c = .v k) s t) ∧
  (∀ (s : State) (x : Reg), s.I.toNat + x.val > 0xFFF →
    exec (.ldVxMem x) s = .fault (.memoryOutOfRange (max s.I.toNat 0x1000)) ∧ stateAfter (exec (.ldVxMem x) s) s = s)

/-- Fx55, then Fx65 with the same x and I, whatever the registers hold in between: V[0] to V[x] are back, and I has advanced
by x + 1 each time (R166, W7). -/
def Obligations.StoreLoadRoundTrip : Prop :=
  ∀ (s t u : State) (x : Reg) (w : Vector Byte 16), exec (.ldMemVx x) s = .next t →
    exec (.ldVxMem x) { t with I := s.I, V := w } = .next u →
    (∀ k : Reg, k ≤ x → u.v k = s.v k) ∧ t.I.toNat = s.I.toNat + x.val + 1 ∧ u.I.toNat = s.I.toNat + x.val + 1

/-- A word stored by Fx55 is the word the next fetch at its address reads (R61, R246; D27). -/
def Obligations.FetchSeesStores : Prop :=
  ∀ (s t : State) (x k j : Reg) (a : Word), exec (.ldMemVx x) s = .next t → j.val = k.val + 1 → j ≤ x →
    a.toNat = s.blockAddress k.val → (t.setPc a).fetch = .ok (wordOfBytes (s.v k) (s.v j))

/-! ### Who writes what: rules of the prose over all instructions -/

/-- No instruction writes keys (R32), the lifecycle bit (R37) or the parameters (log 2). -/
def Obligations.HostStateLeftAlone : Prop :=
  ∀ (i : Instr) (s t : State), exec i s = .next t →
    (∀ k, t.key k = s.key k) ∧ t.loaded = s.loaded ∧ t.params = s.params

/-- Only 00E0 and Dxyn write the framebuffer and drawFlag, and no instruction clears drawFlag (R33, R34). -/
def Obligations.DisplayWriters : Prop :=
  ∀ (i : Instr) (s t : State), exec i s = .next t →
    ((i ≠ .cls ∧ ∀ x y n, i ≠ .drw x y n) → (∀ c r, t.pixel c r = s.pixel c r) ∧ t.drawFlag = s.drawFlag) ∧
    (s.drawFlag = true → t.drawFlag = true)

/-- A step never decrements DT or ST: DT changes only at an Fx15 word and ST only at an Fx18 word, and each then holds V[x]
(R93). -/
def Obligations.TimersMoveOnlyByTheirWriters : Prop :=
  ∀ s t : State, step s = .next t →
    (t.DT = s.DT ∨ ∃ x, s.nextInstr = some (.ldDTVx x) ∧ t.DT = s.v x) ∧
    (t.ST = s.ST ∨ ∃ x, s.nextInstr = some (.ldSTVx x) ∧ t.ST = s.v x)

/-- Only Fx33 and Fx55 write memory; only Annn, Fx1E, Fx29, Fx55 and Fx65 write I; only 2nnn and 00EE move sp, and only 2nnn
writes a stack entry (R26, R27, R28, R54). -/
def Obligations.MemoryIndexAndStackWriters : Prop :=
  ∀ (i : Instr) (s t : State), exec i s = .next t →
    ((∀ x, i ≠ .ldBVx x ∧ i ≠ .ldMemVx x) → ∀ a, t.memRead a = s.memRead a) ∧
    ((∀ w, i ≠ .ldI w) → (∀ x, i ≠ .addIVx x ∧ i ≠ .ldFVx x ∧ i ≠ .ldMemVx x ∧ i ≠ .ldVxMem x) → t.I = s.I) ∧
    ((∀ w, i ≠ .call w) → (∀ k, t.stackEntry k = s.stackEntry k) ∧ (i ≠ .ret → t.sp = s.sp))

/-! ### tick, reset and the host -/

/-- tick (R220, R221): each timer counts down to 0 and stays there, the tone is raised exactly when ST goes from 1 to 0, and
nothing else changes. -/
def Obligations.TickCountsDown : Prop :=
  ∀ s : State, s.loaded = true → ∃ t, tick s = .next (t, decide (s.ST.toNat = 1)) ∧
    t.DT.toNat = s.DT.toNat - 1 ∧ t.ST.toNat = s.ST.toNat - 1 ∧ ChangesOnly (fun c => c = .DT ∨ c = .ST) s t

/-- The state after a reset with no image bytes, under the default parameters, is State.reset, and its components hold what
R38 lists (pc, keys and drawFlag by D1 and D23, the font bytes by D15). -/
def Obligations.ResetValues : Prop :=
  (∀ s : State, s.params = standardParams → s.draws = 0 → resetImage (some []) s = (State.reset, none)) ∧
  State.reset.pc = 0x200 ∧ State.reset.I = 0 ∧ (∀ k, State.reset.v k = 0) ∧ (∀ k, State.reset.stackEntry k = 0) ∧
  State.reset.sp = 0 ∧ State.reset.DT = 0 ∧ State.reset.ST = 0 ∧ (∀ k, State.reset.key k = false) ∧
  (∀ c r, State.reset.pixel c r = false) ∧ State.reset.drawFlag = false ∧ State.reset.loaded = true ∧
  (∀ (d : Fin 16) (r : Fin 5), State.reset.memRead (5 * d.val + r.val) = (standardFont.get d).get r) ∧
  (∀ a, 0x50 ≤ a → State.reset.memRead a = 0)

/-- reset(image) in any state (R240 to R242): an image of at most 3584 bytes is in memory from 0x200 on, the font before it and
0 everywhere else, whatever was there; a longer one, or none, clears the state, loads nothing and leaves `loaded` false. -/
def Obligations.ResetLoadsImage : Prop :=
  (∀ (s : State) (image : List Byte), image.length ≤ 3584 → ∃ t, resetImage (some image) s = (t, none) ∧
    (∀ k, k < image.length → t.memRead (0x200 + k) = image.getD k 0) ∧
    (∀ a, 0x200 + image.length ≤ a ∨ (0x50 ≤ a ∧ a < 0x200) → t.memRead a = 0) ∧
    (∀ (d : Fin 16) (r : Fin 5), t.memRead (5 * d.val + r.val) = (s.params.font.get d).get r) ∧
    t.pc = 0x200 ∧ t.loaded = true ∧
    ChangesOnly (fun c => c = .params ∨ c = .draws ∨ ∃ a, c = .byte a) State.reset t) ∧
  (∀ (s : State) (image : Option (List Byte)) (reason : LoadFailure),
    (image = none ∧ reason = .unreadable) ∨ (∃ bytes, image = some bytes ∧ 3584 < bytes.length ∧ reason = .tooLarge) →
    ∃ t, resetImage image s = (t, some (.programLoadError reason)) ∧ t.loaded = false ∧
      (∀ a, 0x50 ≤ a → t.memRead a = 0) ∧
      (∀ (d : Fin 16) (r : Fin 5), t.memRead (5 * d.val + r.val) = (s.params.font.get d).get r) ∧
      ChangesOnly (fun c => c = .params ∨ c = .draws ∨ c = .loaded ∨ ∃ a, c = .byte a) State.reset t)

/-- The host's own accesses (R230, R231, R232) are available at any time, whether a program is loaded or not: a key write sets
that key and nothing else, a read gives a copy of the state and changes nothing, a clear of drawFlag touches drawFlag alone. -/
def Obligations.HostAccesses : Prop :=
  ∀ (σ : Session) (k : Key) (b : Bool),
    (∃ τ, perform (.setKey k b) σ = some (τ, .ok) ∧ τ.core.key k = b ∧ ChangesOnly (· = .key k) σ.core τ.core) ∧
    perform .read σ = some (σ, .copy σ.core) ∧
    (∃ τ, perform .clearDrawFlag σ = some (τ, .ok) ∧ τ.core.drawFlag = false ∧
      ChangesOnly (· = .drawFlag) σ.core τ.core)

/-- skip (R210, R233; the spec's choice D21, its duration log 21): after a step returned an error the host may move pc past
the word, which changes nothing else, and a pc it moves past 0xFFE faults at the next fetch (where 16 bits cannot hold it, log 20).
The host may not right after a step that returned no error, right after a skip, nor right after a reset, one that failed included;
a tick, a key write, a read and a clear of drawFlag leave it as open or as closed as it was. -/
def Obligations.SkipOnlyAfterError : Prop :=
  (∀ (σ τ : Session) (c : Fault), perform .step σ = some (τ, .error c) → τ.core = σ.core ∧
    ∃ υ, perform .skip τ = some (υ, .ok) ∧ AdvancesBy 2 σ.core υ.core ∧ ChangesOnly (· = .pc) σ.core υ.core ∧
      (0xFFE < σ.core.pc.toNat + 2 → step υ.core = .fault (.memoryOutOfRange (max υ.core.pc.toNat 0x1000))) ∧
      perform .skip υ = none) ∧
  (∀ (σ τ : Session) (reply : Reply), perform .step σ = some (τ, reply) → (∀ c, reply ≠ .error c) →
    perform .skip τ = none) ∧
  (∀ (σ : Session) (image : Option (List Byte)), ∃ τ reply, perform (.reset image) σ = some (τ, reply) ∧
    perform .skip τ = none) ∧
  (∀ (σ τ : Session) (op : Operation) (reply : Reply), op ≠ .step → op ≠ .skip → (∀ image, op ≠ .reset image) →
    perform op σ = some (τ, reply) → (perform .skip τ).isSome = (perform .skip σ).isSome)

/-! ### Invariants -/

/-- State.reset meets the invariant. -/
def Obligations.ResetMeetsInvariant : Prop := State.reset.Inv

/-- Every step keeps the invariant, from every state that meets it: memory stays in canonical form, every return address in
use is one a fetch can read, and pc stays at most 0x10FE (R25, R101). -/
def Obligations.StepKeepsInvariant : Prop :=
  ∀ s t : State, s.Inv → step s = .next t → t.Inv

/-- Every operation of the interface, in any order, keeps memory canonical and the return addresses fetchable, and an error
that is still open to a skip is the very error a step of the state would return (R94, R95, R209, R210). -/
def Obligations.OperationsKeepSessionInvariant : Prop :=
  ∀ (σ τ : Session) (op : Operation) (reply : Reply), σ.Inv → perform op σ = some (τ, reply) → τ.Inv
end

