-- ==== Sys2Proof/Laws/Decode.lean ====
section
/-! SUPPORT. The fields of the words the encoder makes, and the bytes of a word. -/

namespace Sys2Proof

/-! ### Fields and words as numbers -/

theorem opFamily_toNat (op : Word) : (opFamily op).toNat = op.toNat / 4096 := by
  have := op.isLt
  simp only [opFamily, BitVec.extractLsb'_toNat, Nat.shiftRight_eq_div_pow]
  omega

theorem opX_val (op : Word) : (opX op).val = op.toNat / 256 % 16 := by
  show ((op.extractLsb' 8 4).toNat) = _
  simp only [BitVec.extractLsb'_toNat, Nat.shiftRight_eq_div_pow]

theorem opY_val (op : Word) : (opY op).val = op.toNat / 16 % 16 := by
  show ((op.extractLsb' 4 4).toNat) = _
  simp only [BitVec.extractLsb'_toNat, Nat.shiftRight_eq_div_pow]

theorem opN_eq (op : Word) : opN op = op.toNat % 16 := by
  simp only [opN, BitVec.extractLsb'_toNat, Nat.shiftRight_eq_div_pow]
  omega

theorem opNN_toNat (op : Word) : (opNN op).toNat = op.toNat % 256 := by
  simp only [opNN, BitVec.extractLsb'_toNat, Nat.shiftRight_eq_div_pow]
  omega

theorem opNNN_toNat (op : Word) : (opNNN op).toNat = op.toNat % 4096 := by
  simp only [opNNN, BitVec.toNat_setWidth, BitVec.extractLsb'_toNat, Nat.shiftRight_eq_div_pow]
  omega

/-- Concatenation as arithmetic. -/
theorem append_toNat {a b : Nat} (u : BitVec a) (v : BitVec b) : (u ++ v).toNat = u.toNat * 2 ^ b + v.toNat := by
  rw [BitVec.toNat_append, ← Nat.shiftLeft_add_eq_or_of_lt v.isLt, Nat.shiftLeft_eq]

theorem encodeNNN_toNat (o : BitVec 4) (nnn : Word) :
    (encodeNNN o nnn).toNat = o.toNat * 4096 + nnn.toNat % 4096 := by
  show (o ++ nnn.setWidth 12).toNat = _
  rw [append_toNat, BitVec.toNat_setWidth]
  norm_num

theorem encodeXNN_toNat (o : BitVec 4) (x : Reg) (nn : Byte) :
    (encodeXNN o x nn).toNat = o.toNat * 4096 + x.val * 256 + nn.toNat := by
  show (o ++ (BitVec.ofFin x : BitVec 4) ++ nn).toNat = _
  rw [append_toNat, append_toNat]
  show (o.toNat * 2 ^ 4 + x.val) * 2 ^ 8 + nn.toNat = _
  omega

theorem encodeXYN_toNat (o : BitVec 4) (x y : Reg) (n : BitVec 4) :
    (encodeXYN o x y n).toNat = o.toNat * 4096 + x.val * 256 + y.val * 16 + n.toNat := by
  show (o ++ (BitVec.ofFin x : BitVec 4) ++ (BitVec.ofFin y : BitVec 4) ++ n).toNat = _
  rw [append_toNat, append_toNat, append_toNat]
  show ((o.toNat * 2 ^ 4 + x.val) * 2 ^ 4 + y.val) * 2 ^ 4 + n.toNat = _
  omega

/-! ### The fields of the words of each format -/

theorem opFamily_encodeNNN (o : BitVec 4) (nnn : Word) : opFamily (encodeNNN o nnn) = o := by
  apply BitVec.eq_of_toNat_eq
  rw [opFamily_toNat, encodeNNN_toNat]
  omega

theorem opNNN_encodeNNN (o : BitVec 4) {nnn : Word} (h : fitsNNN nnn = true) : opNNN (encodeNNN o nnn) = nnn := by
  have := of_decide_eq_true h
  apply BitVec.eq_of_toNat_eq
  rw [opNNN_toNat, encodeNNN_toNat]
  omega

theorem opFamily_encodeXNN (o : BitVec 4) (x : Reg) (nn : Byte) : opFamily (encodeXNN o x nn) = o := by
  have := nn.isLt
  apply BitVec.eq_of_toNat_eq
  rw [opFamily_toNat, encodeXNN_toNat]
  omega

theorem opX_encodeXNN (o : BitVec 4) (x : Reg) (nn : Byte) : opX (encodeXNN o x nn) = x := by
  have := nn.isLt
  apply Fin.ext
  rw [opX_val, encodeXNN_toNat]
  omega

theorem opNN_encodeXNN (o : BitVec 4) (x : Reg) (nn : Byte) : opNN (encodeXNN o x nn) = nn := by
  have := nn.isLt
  apply BitVec.eq_of_toNat_eq
  rw [opNN_toNat, encodeXNN_toNat]
  omega

theorem opFamily_encodeXYN (o : BitVec 4) (x y : Reg) (n : BitVec 4) : opFamily (encodeXYN o x y n) = o := by
  have := n.isLt
  apply BitVec.eq_of_toNat_eq
  rw [opFamily_toNat, encodeXYN_toNat]
  omega

theorem opX_encodeXYN (o : BitVec 4) (x y : Reg) (n : BitVec 4) : opX (encodeXYN o x y n) = x := by
  have := n.isLt
  apply Fin.ext
  rw [opX_val, encodeXYN_toNat]
  omega

theorem opY_encodeXYN (o : BitVec 4) (x y : Reg) (n : BitVec 4) : opY (encodeXYN o x y n) = y := by
  have := n.isLt
  apply Fin.ext
  rw [opY_val, encodeXYN_toNat]
  omega

theorem opN_encodeXYN (o : BitVec 4) (x y : Reg) (n : BitVec 4) : opN (encodeXYN o x y n) = n.toNat := by
  have := n.isLt
  rw [opN_eq, encodeXYN_toNat]
  omega

/-- A word is its two bytes in the order of the fetch (R50). -/
theorem wordOfBytes_hiByte_loByte (w : Word) : wordOfBytes (hiByte w) (loByte w) = w := by
  have := w.isLt
  apply BitVec.eq_of_toNat_eq
  show (hiByte w ++ loByte w).toNat = _
  rw [append_toNat]
  simp only [hiByte, loByte, BitVec.extractLsb'_toNat, Nat.shiftRight_eq_div_pow]
  omega

/-! ### A word is put together from its own fields -/

theorem fitsNNN_opNNN (op : Word) : fitsNNN (opNNN op) = true := by
  simp only [fitsNNN, opNNN_toNat, decide_eq_true_eq]
  omega

theorem encodeNNN_fields {op : Word} {o : BitVec 4} (h : (opFamily op).toNat = o.toNat) :
    encodeNNN o (opNNN op) = op := by
  apply BitVec.eq_of_toNat_eq
  rw [opFamily_toNat] at h
  rw [encodeNNN_toNat, opNNN_toNat]
  omega

theorem encodeXNN_fields {op : Word} {o : BitVec 4} {nn : Byte} (h : (opFamily op).toNat = o.toNat)
    (hn : (opNN op).toNat = nn.toNat) : encodeXNN o (opX op) nn = op := by
  apply BitVec.eq_of_toNat_eq
  rw [opFamily_toNat] at h
  rw [opNN_toNat] at hn
  rw [encodeXNN_toNat, opX_val]
  omega

theorem encodeXYN_fields {op : Word} {o n : BitVec 4} (h : (opFamily op).toNat = o.toNat) (hn : opN op = n.toNat) :
    encodeXYN o (opX op) (opY op) n = op := by
  apply BitVec.eq_of_toNat_eq
  rw [opFamily_toNat] at h
  rw [opN_eq] at hn
  rw [encodeXYN_toNat, opX_val, opY_val]
  omega

/-! ### Decoding and dispatch -/

/-- All that decoding bytes can do: two bytes whose word is an instruction, and the rest. -/
theorem decode_eq_ok {bs rest : List Byte} {i : Instr} :
    decode bs = .ok (i, rest) ↔ ∃ hi lo, bs = hi :: lo :: rest ∧ decodeWord (wordOfBytes hi lo) = some i := by
  match bs with
  | [] => simp [decode]
  | [_] => simp [decode]
  | hi :: lo :: r =>
    rw [decode]
    cases h : decodeWord (wordOfBytes hi lo) with
    | none =>
      refine ⟨fun e => by simp at e, ?_⟩
      rintro ⟨a, b, e, h'⟩
      simp only [List.cons.injEq] at e
      obtain ⟨rfl, rfl, -⟩ := e
      rw [h] at h'; simp at h'
    | some j =>
      simp only [Except.ok.injEq, Prod.mk.injEq, List.cons.injEq]
      constructor
      · rintro ⟨rfl, rfl⟩
        exact ⟨hi, lo, ⟨rfl, rfl, rfl⟩, h⟩
      · rintro ⟨a, b, ⟨rfl, rfl, rfl⟩, h'⟩
        rw [h] at h'
        exact ⟨Option.some.inj h', rfl⟩

/-- Under `include` every instruction is admitted. -/
@[simp] theorem dispatch_incl (op : Word) : dispatch .incl op = decodeWord op := by
  cases h : decodeWord op <;> simp [dispatch, h, UnlistedOps.admits]

/-- All that dispatch can do: the instruction of the word, when the setting admits it. -/
theorem dispatch_eq_some {u : UnlistedOps} {op : Word} {i : Instr} :
    dispatch u op = some i ↔ decodeWord op = some i ∧ u.admits i = true := by
  simp [dispatch, Option.filter_eq_some_iff]

end Sys2Proof
end

