-- ==== Sys2Proof/Laws/State.lean ====
section
/-! SUPPORT. One lemma per field and per accessor for each update of the state, true by unfolding once, so that no later proof unfolds
a record update. -/

namespace Sys2Proof.Machine

/-! ### The updates that are others under a second name -/

theorem State.setVF_eq (s : State) (b : Byte) : s.setVF b = s.setV flagReg b := rfl

theorem State.advance_eq (s : State) : s.advance = s.setPc (s.pc + 2) := rfl

theorem State.skipIf_eq (s : State) (cond : Bool) : s.skipIf cond = s.setPc (if cond then s.pc + 4 else s.pc + 2) := by
  cases cond <;> rfl

/-! ### memWrite -/

@[simp] theorem State.memWrite_mem (s : State) (a : Nat) (b : Byte) : (s.memWrite a b).mem = s.mem.write a b := rfl
@[simp] theorem State.memWrite_pc (s : State) (a : Nat) (b : Byte) : (s.memWrite a b).pc = s.pc := rfl
@[simp] theorem State.memWrite_I (s : State) (a : Nat) (b : Byte) : (s.memWrite a b).I = s.I := rfl
@[simp] theorem State.memWrite_V (s : State) (a : Nat) (b : Byte) : (s.memWrite a b).V = s.V := rfl
@[simp] theorem State.memWrite_stack (s : State) (a : Nat) (b : Byte) : (s.memWrite a b).stack = s.stack := rfl
@[simp] theorem State.memWrite_sp (s : State) (a : Nat) (b : Byte) : (s.memWrite a b).sp = s.sp := rfl
@[simp] theorem State.memWrite_DT (s : State) (a : Nat) (b : Byte) : (s.memWrite a b).DT = s.DT := rfl
@[simp] theorem State.memWrite_ST (s : State) (a : Nat) (b : Byte) : (s.memWrite a b).ST = s.ST := rfl
@[simp] theorem State.memWrite_keys (s : State) (a : Nat) (b : Byte) : (s.memWrite a b).keys = s.keys := rfl
@[simp] theorem State.memWrite_fb (s : State) (a : Nat) (b : Byte) : (s.memWrite a b).fb = s.fb := rfl
@[simp] theorem State.memWrite_drawFlag (s : State) (a : Nat) (b : Byte) : (s.memWrite a b).drawFlag = s.drawFlag := rfl
@[simp] theorem State.memWrite_loaded (s : State) (a : Nat) (b : Byte) : (s.memWrite a b).loaded = s.loaded := rfl
@[simp] theorem State.memWrite_params (s : State) (a : Nat) (b : Byte) : (s.memWrite a b).params = s.params := rfl
@[simp] theorem State.memWrite_draws (s : State) (a : Nat) (b : Byte) : (s.memWrite a b).draws = s.draws := rfl
@[simp] theorem State.memWrite_at_v (s : State) (a : Nat) (b : Byte) (j : Reg) : (s.memWrite a b).v j = s.v j := rfl
@[simp] theorem State.memWrite_at_stackEntry (s : State) (a : Nat) (b : Byte) (j : Fin 16) : (s.memWrite a b).stackEntry j = s.stackEntry j := rfl
@[simp] theorem State.memWrite_at_key (s : State) (a : Nat) (b : Byte) (j : Key) : (s.memWrite a b).key j = s.key j := rfl
@[simp] theorem State.memWrite_at_pixel (s : State) (a : Nat) (b : Byte) (c' : Col) (r' : Row) : (s.memWrite a b).pixel c' r' = s.pixel c' r' := rfl

/-! ### memWriteBytes -/

@[simp] theorem State.memWriteBytes_mem (s : State) (a : Nat) (bs : List Byte) : (s.memWriteBytes a bs).mem = s.mem.writeBytes a bs := rfl
@[simp] theorem State.memWriteBytes_pc (s : State) (a : Nat) (bs : List Byte) : (s.memWriteBytes a bs).pc = s.pc := rfl
@[simp] theorem State.memWriteBytes_I (s : State) (a : Nat) (bs : List Byte) : (s.memWriteBytes a bs).I = s.I := rfl
@[simp] theorem State.memWriteBytes_V (s : State) (a : Nat) (bs : List Byte) : (s.memWriteBytes a bs).V = s.V := rfl
@[simp] theorem State.memWriteBytes_stack (s : State) (a : Nat) (bs : List Byte) : (s.memWriteBytes a bs).stack = s.stack := rfl
@[simp] theorem State.memWriteBytes_sp (s : State) (a : Nat) (bs : List Byte) : (s.memWriteBytes a bs).sp = s.sp := rfl
@[simp] theorem State.memWriteBytes_DT (s : State) (a : Nat) (bs : List Byte) : (s.memWriteBytes a bs).DT = s.DT := rfl
@[simp] theorem State.memWriteBytes_ST (s : State) (a : Nat) (bs : List Byte) : (s.memWriteBytes a bs).ST = s.ST := rfl
@[simp] theorem State.memWriteBytes_keys (s : State) (a : Nat) (bs : List Byte) : (s.memWriteBytes a bs).keys = s.keys := rfl
@[simp] theorem State.memWriteBytes_fb (s : State) (a : Nat) (bs : List Byte) : (s.memWriteBytes a bs).fb = s.fb := rfl
@[simp] theorem State.memWriteBytes_drawFlag (s : State) (a : Nat) (bs : List Byte) : (s.memWriteBytes a bs).drawFlag = s.drawFlag := rfl
@[simp] theorem State.memWriteBytes_loaded (s : State) (a : Nat) (bs : List Byte) : (s.memWriteBytes a bs).loaded = s.loaded := rfl
@[simp] theorem State.memWriteBytes_params (s : State) (a : Nat) (bs : List Byte) : (s.memWriteBytes a bs).params = s.params := rfl
@[simp] theorem State.memWriteBytes_draws (s : State) (a : Nat) (bs : List Byte) : (s.memWriteBytes a bs).draws = s.draws := rfl
@[simp] theorem State.memWriteBytes_at_v (s : State) (a : Nat) (bs : List Byte) (j : Reg) : (s.memWriteBytes a bs).v j = s.v j := rfl
@[simp] theorem State.memWriteBytes_at_stackEntry (s : State) (a : Nat) (bs : List Byte) (j : Fin 16) : (s.memWriteBytes a bs).stackEntry j = s.stackEntry j := rfl
@[simp] theorem State.memWriteBytes_at_key (s : State) (a : Nat) (bs : List Byte) (j : Key) : (s.memWriteBytes a bs).key j = s.key j := rfl
@[simp] theorem State.memWriteBytes_at_pixel (s : State) (a : Nat) (bs : List Byte) (c' : Col) (r' : Row) : (s.memWriteBytes a bs).pixel c' r' = s.pixel c' r' := rfl

/-! ### setV -/

@[simp] theorem State.setV_mem (s : State) (k : Reg) (b : Byte) : (s.setV k b).mem = s.mem := rfl
@[simp] theorem State.setV_pc (s : State) (k : Reg) (b : Byte) : (s.setV k b).pc = s.pc := rfl
@[simp] theorem State.setV_I (s : State) (k : Reg) (b : Byte) : (s.setV k b).I = s.I := rfl
@[simp] theorem State.setV_V (s : State) (k : Reg) (b : Byte) : (s.setV k b).V = s.V.set k b := rfl
@[simp] theorem State.setV_stack (s : State) (k : Reg) (b : Byte) : (s.setV k b).stack = s.stack := rfl
@[simp] theorem State.setV_sp (s : State) (k : Reg) (b : Byte) : (s.setV k b).sp = s.sp := rfl
@[simp] theorem State.setV_DT (s : State) (k : Reg) (b : Byte) : (s.setV k b).DT = s.DT := rfl
@[simp] theorem State.setV_ST (s : State) (k : Reg) (b : Byte) : (s.setV k b).ST = s.ST := rfl
@[simp] theorem State.setV_keys (s : State) (k : Reg) (b : Byte) : (s.setV k b).keys = s.keys := rfl
@[simp] theorem State.setV_fb (s : State) (k : Reg) (b : Byte) : (s.setV k b).fb = s.fb := rfl
@[simp] theorem State.setV_drawFlag (s : State) (k : Reg) (b : Byte) : (s.setV k b).drawFlag = s.drawFlag := rfl
@[simp] theorem State.setV_loaded (s : State) (k : Reg) (b : Byte) : (s.setV k b).loaded = s.loaded := rfl
@[simp] theorem State.setV_params (s : State) (k : Reg) (b : Byte) : (s.setV k b).params = s.params := rfl
@[simp] theorem State.setV_draws (s : State) (k : Reg) (b : Byte) : (s.setV k b).draws = s.draws := rfl
@[simp] theorem State.setV_at_memRead (s : State) (k : Reg) (b : Byte) (a' : Nat) : (s.setV k b).memRead a' = s.memRead a' := rfl
@[simp] theorem State.setV_at_stackEntry (s : State) (k : Reg) (b : Byte) (j : Fin 16) : (s.setV k b).stackEntry j = s.stackEntry j := rfl
@[simp] theorem State.setV_at_key (s : State) (k : Reg) (b : Byte) (j : Key) : (s.setV k b).key j = s.key j := rfl
@[simp] theorem State.setV_at_pixel (s : State) (k : Reg) (b : Byte) (c' : Col) (r' : Row) : (s.setV k b).pixel c' r' = s.pixel c' r' := rfl

/-! ### setI -/

@[simp] theorem State.setI_mem (s : State) (w : Word) : (s.setI w).mem = s.mem := rfl
@[simp] theorem State.setI_pc (s : State) (w : Word) : (s.setI w).pc = s.pc := rfl
@[simp] theorem State.setI_I (s : State) (w : Word) : (s.setI w).I = w := rfl
@[simp] theorem State.setI_V (s : State) (w : Word) : (s.setI w).V = s.V := rfl
@[simp] theorem State.setI_stack (s : State) (w : Word) : (s.setI w).stack = s.stack := rfl
@[simp] theorem State.setI_sp (s : State) (w : Word) : (s.setI w).sp = s.sp := rfl
@[simp] theorem State.setI_DT (s : State) (w : Word) : (s.setI w).DT = s.DT := rfl
@[simp] theorem State.setI_ST (s : State) (w : Word) : (s.setI w).ST = s.ST := rfl
@[simp] theorem State.setI_keys (s : State) (w : Word) : (s.setI w).keys = s.keys := rfl
@[simp] theorem State.setI_fb (s : State) (w : Word) : (s.setI w).fb = s.fb := rfl
@[simp] theorem State.setI_drawFlag (s : State) (w : Word) : (s.setI w).drawFlag = s.drawFlag := rfl
@[simp] theorem State.setI_loaded (s : State) (w : Word) : (s.setI w).loaded = s.loaded := rfl
@[simp] theorem State.setI_params (s : State) (w : Word) : (s.setI w).params = s.params := rfl
@[simp] theorem State.setI_draws (s : State) (w : Word) : (s.setI w).draws = s.draws := rfl
@[simp] theorem State.setI_at_memRead (s : State) (w : Word) (a' : Nat) : (s.setI w).memRead a' = s.memRead a' := rfl
@[simp] theorem State.setI_at_v (s : State) (w : Word) (j : Reg) : (s.setI w).v j = s.v j := rfl
@[simp] theorem State.setI_at_stackEntry (s : State) (w : Word) (j : Fin 16) : (s.setI w).stackEntry j = s.stackEntry j := rfl
@[simp] theorem State.setI_at_key (s : State) (w : Word) (j : Key) : (s.setI w).key j = s.key j := rfl
@[simp] theorem State.setI_at_pixel (s : State) (w : Word) (c' : Col) (r' : Row) : (s.setI w).pixel c' r' = s.pixel c' r' := rfl

/-! ### setPc -/

@[simp] theorem State.setPc_mem (s : State) (w : Word) : (s.setPc w).mem = s.mem := rfl
@[simp] theorem State.setPc_pc (s : State) (w : Word) : (s.setPc w).pc = w := rfl
@[simp] theorem State.setPc_I (s : State) (w : Word) : (s.setPc w).I = s.I := rfl
@[simp] theorem State.setPc_V (s : State) (w : Word) : (s.setPc w).V = s.V := rfl
@[simp] theorem State.setPc_stack (s : State) (w : Word) : (s.setPc w).stack = s.stack := rfl
@[simp] theorem State.setPc_sp (s : State) (w : Word) : (s.setPc w).sp = s.sp := rfl
@[simp] theorem State.setPc_DT (s : State) (w : Word) : (s.setPc w).DT = s.DT := rfl
@[simp] theorem State.setPc_ST (s : State) (w : Word) : (s.setPc w).ST = s.ST := rfl
@[simp] theorem State.setPc_keys (s : State) (w : Word) : (s.setPc w).keys = s.keys := rfl
@[simp] theorem State.setPc_fb (s : State) (w : Word) : (s.setPc w).fb = s.fb := rfl
@[simp] theorem State.setPc_drawFlag (s : State) (w : Word) : (s.setPc w).drawFlag = s.drawFlag := rfl
@[simp] theorem State.setPc_loaded (s : State) (w : Word) : (s.setPc w).loaded = s.loaded := rfl
@[simp] theorem State.setPc_params (s : State) (w : Word) : (s.setPc w).params = s.params := rfl
@[simp] theorem State.setPc_draws (s : State) (w : Word) : (s.setPc w).draws = s.draws := rfl
@[simp] theorem State.setPc_at_memRead (s : State) (w : Word) (a' : Nat) : (s.setPc w).memRead a' = s.memRead a' := rfl
@[simp] theorem State.setPc_at_v (s : State) (w : Word) (j : Reg) : (s.setPc w).v j = s.v j := rfl
@[simp] theorem State.setPc_at_stackEntry (s : State) (w : Word) (j : Fin 16) : (s.setPc w).stackEntry j = s.stackEntry j := rfl
@[simp] theorem State.setPc_at_key (s : State) (w : Word) (j : Key) : (s.setPc w).key j = s.key j := rfl
@[simp] theorem State.setPc_at_pixel (s : State) (w : Word) (c' : Col) (r' : Row) : (s.setPc w).pixel c' r' = s.pixel c' r' := rfl

/-! ### setDT -/

@[simp] theorem State.setDT_mem (s : State) (b : Byte) : (s.setDT b).mem = s.mem := rfl
@[simp] theorem State.setDT_pc (s : State) (b : Byte) : (s.setDT b).pc = s.pc := rfl
@[simp] theorem State.setDT_I (s : State) (b : Byte) : (s.setDT b).I = s.I := rfl
@[simp] theorem State.setDT_V (s : State) (b : Byte) : (s.setDT b).V = s.V := rfl
@[simp] theorem State.setDT_stack (s : State) (b : Byte) : (s.setDT b).stack = s.stack := rfl
@[simp] theorem State.setDT_sp (s : State) (b : Byte) : (s.setDT b).sp = s.sp := rfl
@[simp] theorem State.setDT_DT (s : State) (b : Byte) : (s.setDT b).DT = b := rfl
@[simp] theorem State.setDT_ST (s : State) (b : Byte) : (s.setDT b).ST = s.ST := rfl
@[simp] theorem State.setDT_keys (s : State) (b : Byte) : (s.setDT b).keys = s.keys := rfl
@[simp] theorem State.setDT_fb (s : State) (b : Byte) : (s.setDT b).fb = s.fb := rfl
@[simp] theorem State.setDT_drawFlag (s : State) (b : Byte) : (s.setDT b).drawFlag = s.drawFlag := rfl
@[simp] theorem State.setDT_loaded (s : State) (b : Byte) : (s.setDT b).loaded = s.loaded := rfl
@[simp] theorem State.setDT_params (s : State) (b : Byte) : (s.setDT b).params = s.params := rfl
@[simp] theorem State.setDT_draws (s : State) (b : Byte) : (s.setDT b).draws = s.draws := rfl
@[simp] theorem State.setDT_at_memRead (s : State) (b : Byte) (a' : Nat) : (s.setDT b).memRead a' = s.memRead a' := rfl
@[simp] theorem State.setDT_at_v (s : State) (b : Byte) (j : Reg) : (s.setDT b).v j = s.v j := rfl
@[simp] theorem State.setDT_at_stackEntry (s : State) (b : Byte) (j : Fin 16) : (s.setDT b).stackEntry j = s.stackEntry j := rfl
@[simp] theorem State.setDT_at_key (s : State) (b : Byte) (j : Key) : (s.setDT b).key j = s.key j := rfl
@[simp] theorem State.setDT_at_pixel (s : State) (b : Byte) (c' : Col) (r' : Row) : (s.setDT b).pixel c' r' = s.pixel c' r' := rfl

/-! ### setST -/

@[simp] theorem State.setST_mem (s : State) (b : Byte) : (s.setST b).mem = s.mem := rfl
@[simp] theorem State.setST_pc (s : State) (b : Byte) : (s.setST b).pc = s.pc := rfl
@[simp] theorem State.setST_I (s : State) (b : Byte) : (s.setST b).I = s.I := rfl
@[simp] theorem State.setST_V (s : State) (b : Byte) : (s.setST b).V = s.V := rfl
@[simp] theorem State.setST_stack (s : State) (b : Byte) : (s.setST b).stack = s.stack := rfl
@[simp] theorem State.setST_sp (s : State) (b : Byte) : (s.setST b).sp = s.sp := rfl
@[simp] theorem State.setST_DT (s : State) (b : Byte) : (s.setST b).DT = s.DT := rfl
@[simp] theorem State.setST_ST (s : State) (b : Byte) : (s.setST b).ST = b := rfl
@[simp] theorem State.setST_keys (s : State) (b : Byte) : (s.setST b).keys = s.keys := rfl
@[simp] theorem State.setST_fb (s : State) (b : Byte) : (s.setST b).fb = s.fb := rfl
@[simp] theorem State.setST_drawFlag (s : State) (b : Byte) : (s.setST b).drawFlag = s.drawFlag := rfl
@[simp] theorem State.setST_loaded (s : State) (b : Byte) : (s.setST b).loaded = s.loaded := rfl
@[simp] theorem State.setST_params (s : State) (b : Byte) : (s.setST b).params = s.params := rfl
@[simp] theorem State.setST_draws (s : State) (b : Byte) : (s.setST b).draws = s.draws := rfl
@[simp] theorem State.setST_at_memRead (s : State) (b : Byte) (a' : Nat) : (s.setST b).memRead a' = s.memRead a' := rfl
@[simp] theorem State.setST_at_v (s : State) (b : Byte) (j : Reg) : (s.setST b).v j = s.v j := rfl
@[simp] theorem State.setST_at_stackEntry (s : State) (b : Byte) (j : Fin 16) : (s.setST b).stackEntry j = s.stackEntry j := rfl
@[simp] theorem State.setST_at_key (s : State) (b : Byte) (j : Key) : (s.setST b).key j = s.key j := rfl
@[simp] theorem State.setST_at_pixel (s : State) (b : Byte) (c' : Col) (r' : Row) : (s.setST b).pixel c' r' = s.pixel c' r' := rfl

/-! ### setPixel -/

@[simp] theorem State.setPixel_mem (s : State) (c : Col) (r : Row) (b : Bool) : (s.setPixel c r b).mem = s.mem := rfl
@[simp] theorem State.setPixel_pc (s : State) (c : Col) (r : Row) (b : Bool) : (s.setPixel c r b).pc = s.pc := rfl
@[simp] theorem State.setPixel_I (s : State) (c : Col) (r : Row) (b : Bool) : (s.setPixel c r b).I = s.I := rfl
@[simp] theorem State.setPixel_V (s : State) (c : Col) (r : Row) (b : Bool) : (s.setPixel c r b).V = s.V := rfl
@[simp] theorem State.setPixel_stack (s : State) (c : Col) (r : Row) (b : Bool) : (s.setPixel c r b).stack = s.stack := rfl
@[simp] theorem State.setPixel_sp (s : State) (c : Col) (r : Row) (b : Bool) : (s.setPixel c r b).sp = s.sp := rfl
@[simp] theorem State.setPixel_DT (s : State) (c : Col) (r : Row) (b : Bool) : (s.setPixel c r b).DT = s.DT := rfl
@[simp] theorem State.setPixel_ST (s : State) (c : Col) (r : Row) (b : Bool) : (s.setPixel c r b).ST = s.ST := rfl
@[simp] theorem State.setPixel_keys (s : State) (c : Col) (r : Row) (b : Bool) : (s.setPixel c r b).keys = s.keys := rfl
@[simp] theorem State.setPixel_fb (s : State) (c : Col) (r : Row) (b : Bool) : (s.setPixel c r b).fb = s.fb.set c ((s.fb.get c).set r b) := rfl
@[simp] theorem State.setPixel_drawFlag (s : State) (c : Col) (r : Row) (b : Bool) : (s.setPixel c r b).drawFlag = s.drawFlag := rfl
@[simp] theorem State.setPixel_loaded (s : State) (c : Col) (r : Row) (b : Bool) : (s.setPixel c r b).loaded = s.loaded := rfl
@[simp] theorem State.setPixel_params (s : State) (c : Col) (r : Row) (b : Bool) : (s.setPixel c r b).params = s.params := rfl
@[simp] theorem State.setPixel_draws (s : State) (c : Col) (r : Row) (b : Bool) : (s.setPixel c r b).draws = s.draws := rfl
@[simp] theorem State.setPixel_at_memRead (s : State) (c : Col) (r : Row) (b : Bool) (a' : Nat) : (s.setPixel c r b).memRead a' = s.memRead a' := rfl
@[simp] theorem State.setPixel_at_v (s : State) (c : Col) (r : Row) (b : Bool) (j : Reg) : (s.setPixel c r b).v j = s.v j := rfl
@[simp] theorem State.setPixel_at_stackEntry (s : State) (c : Col) (r : Row) (b : Bool) (j : Fin 16) : (s.setPixel c r b).stackEntry j = s.stackEntry j := rfl
@[simp] theorem State.setPixel_at_key (s : State) (c : Col) (r : Row) (b : Bool) (j : Key) : (s.setPixel c r b).key j = s.key j := rfl

/-! ### clearFb -/

@[simp] theorem State.clearFb_mem (s : State) : (s.clearFb).mem = s.mem := rfl
@[simp] theorem State.clearFb_pc (s : State) : (s.clearFb).pc = s.pc := rfl
@[simp] theorem State.clearFb_I (s : State) : (s.clearFb).I = s.I := rfl
@[simp] theorem State.clearFb_V (s : State) : (s.clearFb).V = s.V := rfl
@[simp] theorem State.clearFb_stack (s : State) : (s.clearFb).stack = s.stack := rfl
@[simp] theorem State.clearFb_sp (s : State) : (s.clearFb).sp = s.sp := rfl
@[simp] theorem State.clearFb_DT (s : State) : (s.clearFb).DT = s.DT := rfl
@[simp] theorem State.clearFb_ST (s : State) : (s.clearFb).ST = s.ST := rfl
@[simp] theorem State.clearFb_keys (s : State) : (s.clearFb).keys = s.keys := rfl
@[simp] theorem State.clearFb_fb (s : State) : (s.clearFb).fb = Vector.replicate 64 (Vector.replicate 32 false) := rfl
@[simp] theorem State.clearFb_drawFlag (s : State) : (s.clearFb).drawFlag = s.drawFlag := rfl
@[simp] theorem State.clearFb_loaded (s : State) : (s.clearFb).loaded = s.loaded := rfl
@[simp] theorem State.clearFb_params (s : State) : (s.clearFb).params = s.params := rfl
@[simp] theorem State.clearFb_draws (s : State) : (s.clearFb).draws = s.draws := rfl
@[simp] theorem State.clearFb_at_memRead (s : State) (a' : Nat) : (s.clearFb).memRead a' = s.memRead a' := rfl
@[simp] theorem State.clearFb_at_v (s : State) (j : Reg) : (s.clearFb).v j = s.v j := rfl
@[simp] theorem State.clearFb_at_stackEntry (s : State) (j : Fin 16) : (s.clearFb).stackEntry j = s.stackEntry j := rfl
@[simp] theorem State.clearFb_at_key (s : State) (j : Key) : (s.clearFb).key j = s.key j := rfl

/-! ### raiseDrawFlag -/

@[simp] theorem State.raiseDrawFlag_mem (s : State) : (s.raiseDrawFlag).mem = s.mem := rfl
@[simp] theorem State.raiseDrawFlag_pc (s : State) : (s.raiseDrawFlag).pc = s.pc := rfl
@[simp] theorem State.raiseDrawFlag_I (s : State) : (s.raiseDrawFlag).I = s.I := rfl
@[simp] theorem State.raiseDrawFlag_V (s : State) : (s.raiseDrawFlag).V = s.V := rfl
@[simp] theorem State.raiseDrawFlag_stack (s : State) : (s.raiseDrawFlag).stack = s.stack := rfl
@[simp] theorem State.raiseDrawFlag_sp (s : State) : (s.raiseDrawFlag).sp = s.sp := rfl
@[simp] theorem State.raiseDrawFlag_DT (s : State) : (s.raiseDrawFlag).DT = s.DT := rfl
@[simp] theorem State.raiseDrawFlag_ST (s : State) : (s.raiseDrawFlag).ST = s.ST := rfl
@[simp] theorem State.raiseDrawFlag_keys (s : State) : (s.raiseDrawFlag).keys = s.keys := rfl
@[simp] theorem State.raiseDrawFlag_fb (s : State) : (s.raiseDrawFlag).fb = s.fb := rfl
@[simp] theorem State.raiseDrawFlag_drawFlag (s : State) : (s.raiseDrawFlag).drawFlag = true := rfl
@[simp] theorem State.raiseDrawFlag_loaded (s : State) : (s.raiseDrawFlag).loaded = s.loaded := rfl
@[simp] theorem State.raiseDrawFlag_params (s : State) : (s.raiseDrawFlag).params = s.params := rfl
@[simp] theorem State.raiseDrawFlag_draws (s : State) : (s.raiseDrawFlag).draws = s.draws := rfl
@[simp] theorem State.raiseDrawFlag_at_memRead (s : State) (a' : Nat) : (s.raiseDrawFlag).memRead a' = s.memRead a' := rfl
@[simp] theorem State.raiseDrawFlag_at_v (s : State) (j : Reg) : (s.raiseDrawFlag).v j = s.v j := rfl
@[simp] theorem State.raiseDrawFlag_at_stackEntry (s : State) (j : Fin 16) : (s.raiseDrawFlag).stackEntry j = s.stackEntry j := rfl
@[simp] theorem State.raiseDrawFlag_at_key (s : State) (j : Key) : (s.raiseDrawFlag).key j = s.key j := rfl
@[simp] theorem State.raiseDrawFlag_at_pixel (s : State) (c' : Col) (r' : Row) : (s.raiseDrawFlag).pixel c' r' = s.pixel c' r' := rfl

/-! ### useDraw -/

@[simp] theorem State.useDraw_mem (s : State) : (s.useDraw).mem = s.mem := rfl
@[simp] theorem State.useDraw_pc (s : State) : (s.useDraw).pc = s.pc := rfl
@[simp] theorem State.useDraw_I (s : State) : (s.useDraw).I = s.I := rfl
@[simp] theorem State.useDraw_V (s : State) : (s.useDraw).V = s.V := rfl
@[simp] theorem State.useDraw_stack (s : State) : (s.useDraw).stack = s.stack := rfl
@[simp] theorem State.useDraw_sp (s : State) : (s.useDraw).sp = s.sp := rfl
@[simp] theorem State.useDraw_DT (s : State) : (s.useDraw).DT = s.DT := rfl
@[simp] theorem State.useDraw_ST (s : State) : (s.useDraw).ST = s.ST := rfl
@[simp] theorem State.useDraw_keys (s : State) : (s.useDraw).keys = s.keys := rfl
@[simp] theorem State.useDraw_fb (s : State) : (s.useDraw).fb = s.fb := rfl
@[simp] theorem State.useDraw_drawFlag (s : State) : (s.useDraw).drawFlag = s.drawFlag := rfl
@[simp] theorem State.useDraw_loaded (s : State) : (s.useDraw).loaded = s.loaded := rfl
@[simp] theorem State.useDraw_params (s : State) : (s.useDraw).params = s.params := rfl
@[simp] theorem State.useDraw_draws (s : State) : (s.useDraw).draws = s.draws + 1 := rfl
@[simp] theorem State.useDraw_at_memRead (s : State) (a' : Nat) : (s.useDraw).memRead a' = s.memRead a' := rfl
@[simp] theorem State.useDraw_at_v (s : State) (j : Reg) : (s.useDraw).v j = s.v j := rfl
@[simp] theorem State.useDraw_at_stackEntry (s : State) (j : Fin 16) : (s.useDraw).stackEntry j = s.stackEntry j := rfl
@[simp] theorem State.useDraw_at_key (s : State) (j : Key) : (s.useDraw).key j = s.key j := rfl
@[simp] theorem State.useDraw_at_pixel (s : State) (c' : Col) (r' : Row) : (s.useDraw).pixel c' r' = s.pixel c' r' := rfl

/-! ### skipFaulting -/

@[simp] theorem State.skipFaulting_mem (s : State) : (s.skipFaulting).mem = s.mem := rfl
@[simp] theorem State.skipFaulting_I (s : State) : (s.skipFaulting).I = s.I := rfl
@[simp] theorem State.skipFaulting_V (s : State) : (s.skipFaulting).V = s.V := rfl
@[simp] theorem State.skipFaulting_stack (s : State) : (s.skipFaulting).stack = s.stack := rfl
@[simp] theorem State.skipFaulting_sp (s : State) : (s.skipFaulting).sp = s.sp := rfl
@[simp] theorem State.skipFaulting_DT (s : State) : (s.skipFaulting).DT = s.DT := rfl
@[simp] theorem State.skipFaulting_ST (s : State) : (s.skipFaulting).ST = s.ST := rfl
@[simp] theorem State.skipFaulting_keys (s : State) : (s.skipFaulting).keys = s.keys := rfl
@[simp] theorem State.skipFaulting_fb (s : State) : (s.skipFaulting).fb = s.fb := rfl
@[simp] theorem State.skipFaulting_drawFlag (s : State) : (s.skipFaulting).drawFlag = s.drawFlag := rfl
@[simp] theorem State.skipFaulting_loaded (s : State) : (s.skipFaulting).loaded = s.loaded := rfl
@[simp] theorem State.skipFaulting_params (s : State) : (s.skipFaulting).params = s.params := rfl
@[simp] theorem State.skipFaulting_draws (s : State) : (s.skipFaulting).draws = s.draws := rfl
@[simp] theorem State.skipFaulting_at_memRead (s : State) (a' : Nat) : (s.skipFaulting).memRead a' = s.memRead a' := rfl
@[simp] theorem State.skipFaulting_at_v (s : State) (j : Reg) : (s.skipFaulting).v j = s.v j := rfl
@[simp] theorem State.skipFaulting_at_stackEntry (s : State) (j : Fin 16) : (s.skipFaulting).stackEntry j = s.stackEntry j := rfl
@[simp] theorem State.skipFaulting_at_key (s : State) (j : Key) : (s.skipFaulting).key j = s.key j := rfl
@[simp] theorem State.skipFaulting_at_pixel (s : State) (c' : Col) (r' : Row) : (s.skipFaulting).pixel c' r' = s.pixel c' r' := rfl

/-! ### countTimers -/

@[simp] theorem State.countTimers_mem (s : State) : (s.countTimers).mem = s.mem := rfl
@[simp] theorem State.countTimers_pc (s : State) : (s.countTimers).pc = s.pc := rfl
@[simp] theorem State.countTimers_I (s : State) : (s.countTimers).I = s.I := rfl
@[simp] theorem State.countTimers_V (s : State) : (s.countTimers).V = s.V := rfl
@[simp] theorem State.countTimers_stack (s : State) : (s.countTimers).stack = s.stack := rfl
@[simp] theorem State.countTimers_sp (s : State) : (s.countTimers).sp = s.sp := rfl
@[simp] theorem State.countTimers_DT (s : State) : (s.countTimers).DT = countDown s.DT := rfl
@[simp] theorem State.countTimers_ST (s : State) : (s.countTimers).ST = countDown s.ST := rfl
@[simp] theorem State.countTimers_keys (s : State) : (s.countTimers).keys = s.keys := rfl
@[simp] theorem State.countTimers_fb (s : State) : (s.countTimers).fb = s.fb := rfl
@[simp] theorem State.countTimers_drawFlag (s : State) : (s.countTimers).drawFlag = s.drawFlag := rfl
@[simp] theorem State.countTimers_loaded (s : State) : (s.countTimers).loaded = s.loaded := rfl
@[simp] theorem State.countTimers_params (s : State) : (s.countTimers).params = s.params := rfl
@[simp] theorem State.countTimers_draws (s : State) : (s.countTimers).draws = s.draws := rfl
@[simp] theorem State.countTimers_at_memRead (s : State) (a' : Nat) : (s.countTimers).memRead a' = s.memRead a' := rfl
@[simp] theorem State.countTimers_at_v (s : State) (j : Reg) : (s.countTimers).v j = s.v j := rfl
@[simp] theorem State.countTimers_at_stackEntry (s : State) (j : Fin 16) : (s.countTimers).stackEntry j = s.stackEntry j := rfl
@[simp] theorem State.countTimers_at_key (s : State) (j : Key) : (s.countTimers).key j = s.key j := rfl
@[simp] theorem State.countTimers_at_pixel (s : State) (c' : Col) (r' : Row) : (s.countTimers).pixel c' r' = s.pixel c' r' := rfl

/-! ### setKey -/

@[simp] theorem setKey_mem (s : State) (k : Key) (p : Bool) : (setKey k p s).mem = s.mem := rfl
@[simp] theorem setKey_pc (s : State) (k : Key) (p : Bool) : (setKey k p s).pc = s.pc := rfl
@[simp] theorem setKey_I (s : State) (k : Key) (p : Bool) : (setKey k p s).I = s.I := rfl
@[simp] theorem setKey_V (s : State) (k : Key) (p : Bool) : (setKey k p s).V = s.V := rfl
@[simp] theorem setKey_stack (s : State) (k : Key) (p : Bool) : (setKey k p s).stack = s.stack := rfl
@[simp] theorem setKey_sp (s : State) (k : Key) (p : Bool) : (setKey k p s).sp = s.sp := rfl
@[simp] theorem setKey_DT (s : State) (k : Key) (p : Bool) : (setKey k p s).DT = s.DT := rfl
@[simp] theorem setKey_ST (s : State) (k : Key) (p : Bool) : (setKey k p s).ST = s.ST := rfl
@[simp] theorem setKey_keys (s : State) (k : Key) (p : Bool) : (setKey k p s).keys = s.keys.set k p := rfl
@[simp] theorem setKey_fb (s : State) (k : Key) (p : Bool) : (setKey k p s).fb = s.fb := rfl
@[simp] theorem setKey_drawFlag (s : State) (k : Key) (p : Bool) : (setKey k p s).drawFlag = s.drawFlag := rfl
@[simp] theorem setKey_loaded (s : State) (k : Key) (p : Bool) : (setKey k p s).loaded = s.loaded := rfl
@[simp] theorem setKey_params (s : State) (k : Key) (p : Bool) : (setKey k p s).params = s.params := rfl
@[simp] theorem setKey_draws (s : State) (k : Key) (p : Bool) : (setKey k p s).draws = s.draws := rfl
@[simp] theorem setKey_at_memRead (s : State) (k : Key) (p : Bool) (a' : Nat) : (setKey k p s).memRead a' = s.memRead a' := rfl
@[simp] theorem setKey_at_v (s : State) (k : Key) (p : Bool) (j : Reg) : (setKey k p s).v j = s.v j := rfl
@[simp] theorem setKey_at_stackEntry (s : State) (k : Key) (p : Bool) (j : Fin 16) : (setKey k p s).stackEntry j = s.stackEntry j := rfl
@[simp] theorem setKey_at_pixel (s : State) (k : Key) (p : Bool) (c' : Col) (r' : Row) : (setKey k p s).pixel c' r' = s.pixel c' r' := rfl

/-! ### clearDrawFlag -/

@[simp] theorem clearDrawFlag_mem (s : State) : (clearDrawFlag s).mem = s.mem := rfl
@[simp] theorem clearDrawFlag_pc (s : State) : (clearDrawFlag s).pc = s.pc := rfl
@[simp] theorem clearDrawFlag_I (s : State) : (clearDrawFlag s).I = s.I := rfl
@[simp] theorem clearDrawFlag_V (s : State) : (clearDrawFlag s).V = s.V := rfl
@[simp] theorem clearDrawFlag_stack (s : State) : (clearDrawFlag s).stack = s.stack := rfl
@[simp] theorem clearDrawFlag_sp (s : State) : (clearDrawFlag s).sp = s.sp := rfl
@[simp] theorem clearDrawFlag_DT (s : State) : (clearDrawFlag s).DT = s.DT := rfl
@[simp] theorem clearDrawFlag_ST (s : State) : (clearDrawFlag s).ST = s.ST := rfl
@[simp] theorem clearDrawFlag_keys (s : State) : (clearDrawFlag s).keys = s.keys := rfl
@[simp] theorem clearDrawFlag_fb (s : State) : (clearDrawFlag s).fb = s.fb := rfl
@[simp] theorem clearDrawFlag_drawFlag (s : State) : (clearDrawFlag s).drawFlag = false := rfl
@[simp] theorem clearDrawFlag_loaded (s : State) : (clearDrawFlag s).loaded = s.loaded := rfl
@[simp] theorem clearDrawFlag_params (s : State) : (clearDrawFlag s).params = s.params := rfl
@[simp] theorem clearDrawFlag_draws (s : State) : (clearDrawFlag s).draws = s.draws := rfl
@[simp] theorem clearDrawFlag_at_memRead (s : State) (a' : Nat) : (clearDrawFlag s).memRead a' = s.memRead a' := rfl
@[simp] theorem clearDrawFlag_at_v (s : State) (j : Reg) : (clearDrawFlag s).v j = s.v j := rfl
@[simp] theorem clearDrawFlag_at_stackEntry (s : State) (j : Fin 16) : (clearDrawFlag s).stackEntry j = s.stackEntry j := rfl
@[simp] theorem clearDrawFlag_at_key (s : State) (j : Key) : (clearDrawFlag s).key j = s.key j := rfl
@[simp] theorem clearDrawFlag_at_pixel (s : State) (c' : Col) (r' : Row) : (clearDrawFlag s).pixel c' r' = s.pixel c' r' := rfl
/-! ### What the accessors read after the update of their own array -/

theorem State.setV_at_v (s : State) (k : Reg) (b : Byte) (j : Reg) : (s.setV k b).v j = if k = j then b else s.v j := by
  simp only [State.v, State.setV, Vector.get_eq_getElem, Vector.getElem_set, Fin.ext_iff]

@[simp] theorem State.setV_at_same (s : State) (k : Reg) (b : Byte) : (s.setV k b).v k = b := by
  simp [State.setV_at_v]

theorem State.setV_at_other (s : State) {k j : Reg} (b : Byte) (h : k ≠ j) : (s.setV k b).v j = s.v j := by
  simp [State.setV_at_v, h]

theorem State.setPixel_at_pixel (s : State) (c : Col) (r : Row) (b : Bool) (c' : Col) (r' : Row) :
    (s.setPixel c r b).pixel c' r' = if c = c' ∧ r = r' then b else s.pixel c' r' := by
  simp only [State.pixel, State.setPixel, Vector.get_eq_getElem, Vector.getElem_set, Fin.ext_iff]
  by_cases hc : c.val = c'.val
  · have hc' : c = c' := Fin.ext hc
    subst hc'
    simp [Vector.getElem_set]
  · simp [hc]

@[simp] theorem State.clearFb_at_pixel (s : State) (c : Col) (r : Row) : s.clearFb.pixel c r = false := by
  simp [State.pixel, State.clearFb, Vector.get_eq_getElem]

theorem setKey_at_key (s : State) (k : Key) (p : Bool) (j : Key) :
    (setKey k p s).key j = if k = j then p else s.key j := by
  simp only [State.key, setKey, Vector.get_eq_getElem, Vector.getElem_set, Fin.ext_iff]

/-! ### Equal states -/

/-- Two states that read the same in every component, and whose memories are the same list, are equal. -/
theorem State.eq_of_reads {s t : State} (hmem : t.mem = s.mem) (h : ∀ c, Component.Same s t c) : t = s := by
  have hV : t.V = s.V := Vector.ext fun k hk => by simpa [State.v, Component.Same, Vector.get_eq_getElem] using h (.v ⟨k, hk⟩)
  have hS : t.stack = s.stack := Vector.ext fun k hk => by
    simpa [State.stackEntry, Component.Same, Vector.get_eq_getElem] using h (.stack ⟨k, hk⟩)
  have hK : t.keys = s.keys := Vector.ext fun k hk => by
    simpa [State.key, Component.Same, Vector.get_eq_getElem] using h (.key ⟨k, hk⟩)
  have hF : t.fb = s.fb := Vector.ext fun c hc => Vector.ext fun r hr => by
    simpa [State.pixel, Component.Same, Vector.get_eq_getElem] using h (.pixel ⟨c, hc⟩ ⟨r, hr⟩)
  have hpc := h .pc; have hI := h .I; have hsp := h .sp; have hDT := h .DT; have hST := h .ST
  have hd := h .drawFlag; have hl := h .loaded; have hp := h .params; have hn := h .draws
  cases s; cases t
  simp_all [Component.Same]

end Sys2Proof.Machine
end

