-- ==== Sys2Proof/Laws/Memory.lean ====
section
/-! SUPPORT. The laws of memory: a read after a write, and the canonical form that every memory operation keeps. -/

namespace Sys2Proof.Machine

/-! ### Reading -/

theorem Memory.read_erase_other (m : Memory) {a k : Nat} (h : k ≠ a) : (m.erase a).read k = m.read k := by
  induction m with
  | nil => rfl
  | cons c m ih =>
    by_cases hc : c.1 = a
    · have : c.1 ≠ k := fun e => h (e ▸ hc)
      have he : Memory.erase (c :: m) a = Memory.erase m a := by simp [Memory.erase, hc]
      rw [he, ih]
      simp [Memory.read, this]
    · have he : Memory.erase (c :: m) a = c :: Memory.erase m a := by simp [Memory.erase, hc]
      rw [he]
      simp [Memory.read, ih]

theorem Memory.read_erase_same (m : Memory) (a : Nat) : (m.erase a).read a = background a := by
  induction m with
  | nil => rfl
  | cons c m ih =>
    by_cases hc : c.1 = a
    · have he : Memory.erase (c :: m) a = Memory.erase m a := by simp [Memory.erase, hc]
      rw [he, ih]
    · have he : Memory.erase (c :: m) a = c :: Memory.erase m a := by simp [Memory.erase, hc]
      rw [he]
      simp [Memory.read, hc, ih]

/-- An inserted cell is read at its own address when no other cell has that address, and nothing else changes. -/
theorem Memory.read_insertCell (c : Host.Cell) (m : Memory) (h : ∀ d ∈ m, d.1 ≠ c.1) (k : Nat) :
    (Memory.insertCell c m).read k = if c.1 = k then c.2 else m.read k := by
  induction m with
  | nil => simp [Memory.insertCell, Memory.read]
  | cons d m ih =>
    unfold Memory.insertCell
    split
    · simp [Memory.read]
    · have hd := h d (by simp)
      rw [Memory.read, ih (fun e he => h e (by simp [he])), Memory.read]
      by_cases hk : d.1 = k
      · simp [hk, show c.1 ≠ k from fun e => hd (hk.trans e.symm)]
      · simp [hk]

theorem Memory.erase_ne (m : Memory) (a : Nat) : ∀ d ∈ m.erase a, d.1 ≠ a := by
  intro d hd
  simpa [Memory.erase] using (List.mem_filter.mp hd).2

/-- A read after a write: the value written at its address, the old value everywhere else. -/
theorem Memory.read_write (m : Memory) (a : Nat) (b : Byte) (k : Nat) :
    (m.write a b).read k = if a = k then b else m.read k := by
  unfold Memory.write
  split
  next hb =>
    by_cases hk : a = k
    · subst hk; simp [Memory.read_erase_same, hb]
    · simp [hk, Memory.read_erase_other m (Ne.symm hk)]
  next =>
    rw [Memory.read_insertCell _ _ (Memory.erase_ne m a)]
    by_cases hk : a = k
    · simp [hk]
    · simp [hk, Memory.read_erase_other m (Ne.symm hk)]

/-- A read after a write of several bytes: the byte of its position inside the block, the old value outside. -/
theorem Memory.read_writeBytes (m : Memory) (a : Nat) (bs : List Byte) (k : Nat) :
    (m.writeBytes a bs).read k = if a ≤ k ∧ k < a + bs.length then bs.getD (k - a) 0 else m.read k := by
  induction bs generalizing m a with
  | nil => simp [Memory.writeBytes, show ¬ (a ≤ k ∧ k < a) by omega]
  | cons b bs ih =>
    rw [Memory.writeBytes, ih, Memory.read_write, List.length_cons]
    by_cases h1 : a + 1 ≤ k ∧ k < a + 1 + bs.length
    · rw [if_pos h1, if_pos (by omega), show k - a = (k - (a + 1)) + 1 by omega, List.getD_cons_succ]
    · rw [if_neg h1]
      by_cases h2 : a = k
      · subst h2; simp
      · rw [if_neg h2, if_neg (by omega)]

theorem Memory.read_writeBytes_outside (m : Memory) {a k : Nat} {bs : List Byte} (h : k < a ∨ a + bs.length ≤ k) :
    (m.writeBytes a bs).read k = m.read k := by
  rw [Memory.read_writeBytes, if_neg (by omega)]

theorem State.memRead_memWrite (s : State) (a : Nat) (b : Byte) (k : Nat) :
    (s.memWrite a b).memRead k = if a = k then b else s.memRead k := Memory.read_write s.mem a b k

theorem State.memRead_memWriteBytes (s : State) (a : Nat) (bs : List Byte) (k : Nat) :
    (s.memWriteBytes a bs).memRead k = if a ≤ k ∧ k < a + bs.length then bs.getD (k - a) 0 else s.memRead k :=
  Memory.read_writeBytes s.mem a bs k

/-! ### The canonical form -/

theorem Memory.rising_cons {c : Host.Cell} {m : Memory} :
    Memory.rising (c :: m) = true ↔ (∀ d ∈ m, c.1 < d.1) ∧ Memory.rising m = true := by
  induction m generalizing c with
  | nil => simp [Memory.rising]
  | cons d m ih =>
    simp only [Memory.rising, Bool.and_eq_true, decide_eq_true_eq, List.mem_cons, forall_eq_or_imp]
    constructor
    · rintro ⟨hcd, h⟩
      exact ⟨⟨hcd, fun e he => Nat.lt_trans hcd ((ih.mp h).1 e he)⟩, h⟩
    · rintro ⟨⟨hcd, -⟩, h⟩
      exact ⟨hcd, h⟩

theorem Memory.rising_erase {m : Memory} (h : Memory.rising m = true) (a : Nat) :
    Memory.rising (m.erase a) = true := by
  induction m with
  | nil => rfl
  | cons c m ih =>
    obtain ⟨h1, h2⟩ := Memory.rising_cons.mp h
    by_cases hc : c.1 = a
    · have he : Memory.erase (c :: m) a = Memory.erase m a := by simp [Memory.erase, hc]
      rw [he]; exact ih h2
    · have he : Memory.erase (c :: m) a = c :: Memory.erase m a := by simp [Memory.erase, hc]
      rw [he]
      exact Memory.rising_cons.mpr ⟨fun d hd => h1 d (List.mem_filter.mp hd).1, ih h2⟩

theorem Memory.mem_insertCell {c d : Host.Cell} {m : Memory} :
    d ∈ Memory.insertCell c m ↔ d = c ∨ d ∈ m := by
  induction m with
  | nil => simp [Memory.insertCell]
  | cons e m ih =>
    unfold Memory.insertCell
    split
    · simp
    · simp only [List.mem_cons, ih]; tauto

theorem Memory.rising_insertCell {c : Host.Cell} {m : Memory} (h : Memory.rising m = true)
    (hne : ∀ d ∈ m, d.1 ≠ c.1) : Memory.rising (Memory.insertCell c m) = true := by
  induction m with
  | nil => rfl
  | cons d m ih =>
    obtain ⟨h1, h2⟩ := Memory.rising_cons.mp h
    unfold Memory.insertCell
    split
    next hlt =>
      refine Memory.rising_cons.mpr ⟨?_, h⟩
      intro e he
      rcases List.mem_cons.mp he with rfl | he
      · exact hlt
      · exact Nat.lt_trans hlt (h1 e he)
    next hlt =>
      have hd := hne d (by simp)
      refine Memory.rising_cons.mpr ⟨?_, ih h2 (fun e he => hne e (by simp [he]))⟩
      intro e he
      rcases Memory.mem_insertCell.mp he with rfl | he
      · omega
      · exact h1 e he

/-- Memory's canonical form, as what it says of the cells. -/
theorem Memory.wf_iff {m : Memory} :
    Memory.wf m = true ↔
      Memory.rising m = true ∧ ∀ c ∈ m, c.1 ≤ topAddress ∧ c.2 ≠ background c.1 := by
  simp [Memory.wf, Memory.cellOk]

theorem Memory.wf_nil : Memory.wf [] = true := rfl

/-- A write inside memory keeps the canonical form. -/
theorem Memory.wf_write {m : Memory} (h : Memory.wf m = true) {a : Nat} (ha : a ≤ topAddress) (b : Byte) :
    Memory.wf (m.write a b) = true := by
  obtain ⟨h1, h2⟩ := Memory.wf_iff.mp h
  have he : ∀ c ∈ m.erase a, c.1 ≤ topAddress ∧ c.2 ≠ background c.1 :=
    fun c hc => h2 c (List.mem_filter.mp hc).1
  refine Memory.wf_iff.mpr ?_
  unfold Memory.write
  split
  · exact ⟨Memory.rising_erase h1 a, he⟩
  next hb =>
    refine ⟨Memory.rising_insertCell (Memory.rising_erase h1 a) (Memory.erase_ne m a), ?_⟩
    intro c hc
    rcases Memory.mem_insertCell.mp hc with rfl | hc
    · exact ⟨ha, hb⟩
    · exact he c hc

/-- A write of several bytes, all of them inside memory, keeps the canonical form. -/
theorem Memory.wf_writeBytes {m : Memory} (h : Memory.wf m = true) {a : Nat} {bs : List Byte}
    (ha : a + bs.length ≤ topAddress + 1) : Memory.wf (m.writeBytes a bs) = true := by
  induction bs generalizing m a with
  | nil => exact h
  | cons b bs ih =>
    rw [List.length_cons] at ha
    exact ih (Memory.wf_write h (by omega) b) (by omega)

/-- Two canonical memories that list the same cells are the same list. -/
theorem Memory.eq_of_mem_iff {m n : Memory} (hm : Memory.rising m = true) (hn : Memory.rising n = true)
    (h : ∀ c, c ∈ m ↔ c ∈ n) : m = n := by
  induction m generalizing n with
  | nil =>
    cases n with
    | nil => rfl
    | cons d n => exact absurd ((h d).mpr (by simp)) (by simp)
  | cons c m ih =>
    cases n with
    | nil => exact absurd ((h c).mp (by simp)) (by simp)
    | cons d n =>
      obtain ⟨hm1, hm2⟩ := Memory.rising_cons.mp hm
      obtain ⟨hn1, hn2⟩ := Memory.rising_cons.mp hn
      have hcd : c = d := by
        rcases List.mem_cons.mp ((h c).mp (by simp)) with e | hc
        · exact e
        · rcases List.mem_cons.mp ((h d).mpr (by simp)) with e | hd
          · exact e.symm
          · exact absurd (hn1 c hc) (by have := hm1 d hd; omega)
      subst hcd
      congr 1
      refine ih hm2 hn2 fun e => ?_
      constructor
      · intro he
        rcases List.mem_cons.mp ((h e).mp (by simp [he])) with rfl | h'
        · exact absurd (hm1 e he) (by omega)
        · exact h'
      · intro he
        rcases List.mem_cons.mp ((h e).mpr (by simp [he])) with rfl | h'
        · exact absurd (hn1 e he) (by omega)
        · exact h'

theorem Memory.read_of_mem {m : Memory} (h : Memory.rising m = true) {c : Host.Cell} (hc : c ∈ m) :
    m.read c.1 = c.2 := by
  induction m with
  | nil => simp at hc
  | cons d m ih =>
    obtain ⟨h1, h2⟩ := Memory.rising_cons.mp h
    rcases List.mem_cons.mp hc with rfl | hc
    · simp [Memory.read]
    · have := h1 c hc
      simp [Memory.read, show d.1 ≠ c.1 by omega, ih h2 hc]

theorem Memory.read_of_not_mem {m : Memory} {a : Nat} (h : ∀ c ∈ m, c.1 ≠ a) : m.read a = background a := by
  induction m with
  | nil => rfl
  | cons d m ih =>
    simp [Memory.read, h d (by simp), ih (fun c hc => h c (by simp [hc]))]

/-- Canonical memories that read the same everywhere are equal data. -/
theorem Memory.eq_of_read {m n : Memory} (hm : Memory.wf m = true) (hn : Memory.wf n = true)
    (h : ∀ a, m.read a = n.read a) : m = n := by
  have key : ∀ {m n : Memory}, Memory.wf m = true → Memory.wf n = true → (∀ a, m.read a = n.read a) →
      ∀ c ∈ m, c ∈ n := by
    intro m n hm hn h c hc
    obtain ⟨hm1, hm2⟩ := Memory.wf_iff.mp hm
    obtain ⟨hn1, -⟩ := Memory.wf_iff.mp hn
    have hr := Memory.read_of_mem hm1 hc
    by_cases hx : ∃ d ∈ n, d.1 = c.1
    · obtain ⟨d, hd, e⟩ := hx
      have hr' := Memory.read_of_mem hn1 hd
      have : d = c := Prod.ext e (by rw [← hr', e, ← h, hr])
      exact this ▸ hd
    · exact absurd ((Memory.read_of_not_mem fun d hd e => hx ⟨d, hd, e⟩).symm.trans ((h c.1).symm.trans hr))
        (fun e => (hm2 c hc).2 e.symm)
  exact Memory.eq_of_mem_iff (Memory.wf_iff.mp hm).1 (Memory.wf_iff.mp hn).1
    fun c => ⟨key hm hn h c, key hn hm (fun a => (h a).symm) c⟩

/-- The reset state's memory is canonical. -/
theorem State.reset_mem_wf : Memory.wf State.reset.mem = true := rfl

theorem State.memWriteBytes_canonical {s : State} (h : MemCanonical s) {a : Nat} {bs : List Byte}
    (ha : a + bs.length ≤ topAddress + 1) : MemCanonical (s.memWriteBytes a bs) :=
  Memory.wf_writeBytes h ha

end Sys2Proof.Machine
end

