-- ==== Sys2Proof/Laws/Ops.lean ====
section
/-! SUPPORT. For each shared operation one lemma that says what it can do. -/

namespace Sys2Proof.Machine

/-! ### Bounds and errors -/

/-- The addresses `base` to `base + count - 1` are all in memory, or the first one above 0xFFF is the larger of `base` and
0x1000. -/
theorem firstOutOfRange_eq (base count : Nat) :
    firstOutOfRange base count = if count = 0 ∨ base + count ≤ 0x1000 then none else some (max base 0x1000) := by
  unfold firstOutOfRange topAddress
  split
  next h =>
    rw [List.find?_eq_none]
    intro a ha
    obtain ⟨k, hk, rfl⟩ := List.mem_map.mp ha
    have := List.mem_range.mp hk
    simp only [decide_eq_true_eq, not_lt]
    omega
  next h =>
    rw [not_or] at h
    have hd : max base 0x1000 = base + (max base 0x1000 - base) := by omega
    rw [List.find?_map, hd]
    refine Option.map_eq_some_iff.mpr ⟨_, ?_, rfl⟩
    rw [List.find?_range_eq_some]
    refine ⟨?_, ?_, ?_⟩
    · simp only [Function.comp_apply, decide_eq_true_eq]; omega
    · rw [List.mem_range]; omega
    · intro j hj
      simp only [Function.comp_apply, Bool.not_eq_true', decide_eq_false_iff_not, not_lt]
      omega

/-- With every address in memory the instruction runs. -/
theorem withRange_fits {base count : Nat} (h : count = 0 ∨ base + count ≤ 0x1000) (run : Result) :
    withRange base count run = run := by
  simp [withRange, firstOutOfRange_eq, h]

/-- Otherwise it raises MemoryOutOfRange with the first address out of range. -/
theorem withRange_raises {base count : Nat} (h : ¬ (count = 0 ∨ base + count ≤ 0x1000)) (run : Result) :
    withRange base count run = .fault (.memoryOutOfRange (max base 0x1000)) := by
  simp [withRange, firstOutOfRange_eq, h, raise]

/-- All that a range check can do. -/
theorem withRange_next {base count : Nat} {run : Result} {t : State} :
    withRange base count run = .next t ↔ (count = 0 ∨ base + count ≤ 0x1000) ∧ run = .next t := by
  by_cases h : count = 0 ∨ base + count ≤ 0x1000
  · rw [withRange_fits h]; simp [h]
  · rw [withRange_raises h]; simp [h]

theorem raise_ne_next (c : Fault) (t : State) : raise c ≠ .next t := by simp [raise]

/-! ### Stack -/

/-- All that a push can do. -/
theorem State.push_eq_some {s t : State} {w : Word} :
    s.push w = some t ↔ ∃ h : s.sp.val < 16,
      t = { s with stack := s.stack.set s.sp.val w h, sp := ⟨s.sp.val + 1, Nat.succ_lt_succ h⟩ } := by
  unfold State.push
  split
  next h => exact ⟨fun e => ⟨h, (Option.some.inj e).symm⟩, fun ⟨_, e⟩ => congrArg some e.symm⟩
  next h => exact ⟨fun e => by simp at e, fun ⟨h', _⟩ => absurd h' h⟩

theorem State.push_eq_none {s : State} {w : Word} : s.push w = none ↔ s.sp = 16 := by
  unfold State.push
  split
  next h => exact ⟨fun e => by simp at e, fun e => absurd h (by rw [e]; decide)⟩
  next h => exact ⟨fun _ => Fin.ext (show s.sp.val = 16 by omega), fun _ => rfl⟩

/-- All that a pop can do. -/
theorem State.pop_eq_some {s t : State} {w : Word} :
    s.pop = some (w, t) ↔ ∃ h : 0 < s.sp.val,
      w = s.stackEntry ⟨s.sp.val - 1, by omega⟩ ∧ t = { s with sp := ⟨s.sp.val - 1, by omega⟩ } := by
  unfold State.pop
  split
  next h =>
    refine ⟨fun e => ⟨h, ?_, ?_⟩, fun ⟨_, e1, e2⟩ => by rw [e1, e2]; rfl⟩
    · exact (Prod.mk.inj (Option.some.inj e)).1.symm
    · exact (Prod.mk.inj (Option.some.inj e)).2.symm
  next h => exact ⟨fun e => by simp at e, fun ⟨h', _⟩ => absurd h' h⟩

theorem State.pop_eq_none {s : State} : s.pop = none ↔ s.sp = 0 := by
  unfold State.pop
  split
  next h => exact ⟨fun e => by simp at e, fun e => absurd h (by rw [e]; decide)⟩
  next h => exact ⟨fun _ => Fin.ext (show s.sp.val = 0 by omega), fun _ => rfl⟩

/-! ### Keys -/

/-- The first key is pressed, and none before it is. -/
theorem State.firstKey_eq_some {s : State} {k : Key} :
    s.firstKey = some k ↔ s.key k = true ∧ ∀ j, j < k → s.key j = false := by
  unfold State.firstKey
  constructor
  · intro h
    obtain ⟨hk, as, bs, e, hne⟩ := List.find?_eq_some_iff_append.mp h
    refine ⟨hk, fun j hj => ?_⟩
    have hjm : j ∈ as ++ k :: bs := e ▸ List.mem_finRange j
    have hs : (as ++ k :: bs).Pairwise (· < ·) := e ▸ List.pairwise_lt_finRange 16
    rcases List.mem_append.mp hjm with h1 | h1
    · simpa using hne j h1
    · rcases List.mem_cons.mp h1 with rfl | h1
      · exact absurd hj (lt_irrefl _)
      · have := (List.pairwise_cons.mp (List.pairwise_append.mp hs).2.1).1 j h1
        exact absurd (lt_trans hj this) (lt_irrefl _)
  · rintro ⟨hk, hlt⟩
    cases hf : (List.finRange 16).find? s.key with
    | none =>
      have := List.find?_eq_none.mp hf k (List.mem_finRange k)
      simp [hk] at this
    | some j =>
      congr 1
      obtain ⟨hj, as, bs, e, hne⟩ := List.find?_eq_some_iff_append.mp hf
      have hkm : k ∈ as ++ j :: bs := e ▸ List.mem_finRange k
      have hs : (as ++ j :: bs).Pairwise (· < ·) := e ▸ List.pairwise_lt_finRange 16
      rcases List.mem_append.mp hkm with h1 | h1
      · have := hne k h1; simp [hk] at this
      · rcases List.mem_cons.mp h1 with rfl | h1
        · rfl
        · have := (List.pairwise_cons.mp (List.pairwise_append.mp hs).2.1).1 k h1
          have := hlt j this
          simp [hj] at this

theorem State.firstKey_eq_none {s : State} : s.firstKey = none ↔ ∀ k, s.key k = false := by
  simp [State.firstKey, List.find?_eq_none]

theorem keyOf_eq_some {value : Byte} {k : Key} : keyOf value = some k ↔ value.toNat = k.val := by
  unfold keyOf
  split
  · simp [Fin.ext_iff]
  · simp only [false_iff, reduceCtorEq]; omega

theorem keyOf_eq_none {value : Byte} : keyOf value = none ↔ 15 < value.toNat := by
  unfold keyOf
  split
  · simp only [reduceCtorEq, false_iff]; omega
  · simp only [true_iff]; omega

/-! ### Registers -/

/-- Setting registers from `k` on changes V and nothing else. -/
theorem State.setVs_eq (s : State) (k : Nat) (bs : List Byte) :
    s.setVs k bs = { s with V := (s.setVs k bs).V } := by
  induction bs generalizing s k with
  | nil => rfl
  | cons b bs ih =>
    rw [State.setVs, ih]
    split <;> rfl

/-- A register of the block gets its byte, every other register keeps its value. -/
theorem State.setVs_at_v (s : State) (k : Nat) (bs : List Byte) (j : Reg) :
    (s.setVs k bs).v j = if k ≤ j.val ∧ j.val < k + bs.length then bs.getD (j.val - k) 0 else s.v j := by
  induction bs generalizing s k with
  | nil => simp [State.setVs, show ¬ (k ≤ j.val ∧ j.val < k) by omega]
  | cons b bs ih =>
    rw [State.setVs, ih, List.length_cons]
    by_cases h1 : k + 1 ≤ j.val ∧ j.val < k + 1 + bs.length
    · rw [if_pos h1, if_pos (by omega), show j.val - k = (j.val - (k + 1)) + 1 by omega, List.getD_cons_succ]
    · rw [if_neg h1]
      by_cases hk : k < 16
      · rw [dif_pos hk, State.setV_at_v]
        by_cases h2 : k = j.val
        · subst h2; simp
        · rw [if_neg (by simpa [Fin.ext_iff] using h2), if_neg (by omega)]
      · rw [dif_neg hk, if_neg (by omega)]

theorem regsUpTo_length (x : Reg) : (regsUpTo x).length = blockCount x := by
  revert x; decide

theorem regsUpTo_getElem (x : Reg) (k : Nat) (h : k < (regsUpTo x).length) : ((regsUpTo x)[k]).val = k := by
  revert k; revert x; decide

@[simp] theorem State.blockValues_length (s : State) (x : Reg) : (s.blockValues x).length = blockCount x := by
  simp [State.blockValues, regsUpTo_length]

/-- The k-th value of the block is V[k]. -/
theorem State.blockValues_getD (s : State) {x k : Reg} (h : k ≤ x) : (s.blockValues x).getD k.val 0 = s.v k := by
  have hl : k.val < (regsUpTo x).length := by
    rw [regsUpTo_length, blockCount]; exact Nat.lt_succ_of_le h
  simp only [State.blockValues, List.getD_eq_getElem?_getD, List.getElem?_map, List.getElem?_eq_getElem hl,
    Option.map_some, Option.getD_some]
  congr 1
  exact Fin.ext (regsUpTo_getElem x k.val hl)

@[simp] theorem State.blockBytes_length (s : State) (x : Reg) : (s.blockBytes x).length = blockCount x := by
  simp [State.blockBytes]

/-- The k-th byte of the block is the one at I + k. -/
theorem State.blockBytes_getD (s : State) (x : Reg) {k : Nat} (h : k ≤ x.val) :
    (s.blockBytes x).getD k 0 = s.memRead (s.I.toNat + k) := by
  have hl : k < blockCount x := Nat.lt_succ_of_le h
  simp [State.blockBytes, State.blockAddress, List.getD_eq_getElem?_getD, hl]

/-! ### The policy of VF operands -/

theorem withVfPolicy_runs {s : State} {named : List Reg} (h : PolicyRuns s named) (run : Result) :
    withVfPolicy named s run = run := by
  unfold withVfPolicy refusesVF
  rcases h with h | h
  · simp [h]
  · simp [h]

theorem withVfPolicy_refuses {s : State} {named : List Reg} (h : s.params.vfOperandPolicy = .refuse)
    (hm : flagReg ∈ named) (run : Result) : withVfPolicy named s run = .refused .vfOperand := by
  simp [withVfPolicy, refusesVF, h, hm]

/-- All that the policy can do. -/
theorem withVfPolicy_cases (s : State) (named : List Reg) (run : Result) :
    (PolicyRuns s named ∧ withVfPolicy named s run = run) ∨
      (s.params.vfOperandPolicy = .refuse ∧ flagReg ∈ named ∧ withVfPolicy named s run = .refused .vfOperand) := by
  by_cases h : PolicyRuns s named
  · exact .inl ⟨h, withVfPolicy_runs h run⟩
  · rw [PolicyRuns, not_or, not_not] at h
    have hp : s.params.vfOperandPolicy = .refuse := by
      cases hq : s.params.vfOperandPolicy
      · exact absurd hq h.1
      · rfl
    exact .inr ⟨hp, h.2, withVfPolicy_refuses hp h.2 run⟩

/-! ### pc -/

theorem AdvancesBy_add {s t : State} {k : Nat} {w : Word} (hw : w.toNat = k) (h : t.pc = s.pc + w) :
    AdvancesBy k s t := by
  intro hk
  rw [h, BitVec.toNat_add, hw]
  exact Nat.mod_eq_of_lt hk

/-! ### Framebuffer -/

/-- One plot changes one cell and, on a collision, VF. -/
theorem State.plot_at_pixel (s : State) (c : Col) (q : Row) (c' : Col) (q' : Row) :
    (s.plot c q).pixel c' q' = if c = c' ∧ q = q' then !s.pixel c q else s.pixel c' q' := by
  unfold State.plot
  by_cases h' : c = c' ∧ q = q'
  · obtain ⟨rfl, rfl⟩ := h'
    cases h : s.pixel c q <;> simp [State.setPixel_at_pixel, State.setVF_eq, h]
  · split <;> simp [State.setPixel_at_pixel, State.setVF_eq, h']

theorem State.plot_at_v (s : State) (c : Col) (q : Row) (k : Reg) :
    (s.plot c q).v k = if s.pixel c q = true ∧ flagReg = k then 1 else s.v k := by
  unfold State.plot
  by_cases h : s.pixel c q = true
  · simp [h, State.setVF_eq, State.setV_at_v]
  · simp [h]

/-- A plot touches V and fb only. -/
theorem State.plot_eq (s : State) (c : Col) (q : Row) :
    s.plot c q = { s with V := (s.plot c q).V, fb := (s.plot c q).fb } := by
  unfold State.plot
  cases s.pixel c q <;> rfl

end Sys2Proof.Machine
end

