-- ==== Sys2Proof/Laws/Graphics.lean ====
section
/-! SUPPORT. What drawing a sprite does: the cells the sprite covers, each of them plotted once (43_graphics.md R141 to R143). -/

namespace Sys2Proof.Machine

/-- Plots of a list of cells, one after another. -/
def State.plotAll (s : State) (cells : List (Col × Row)) : State := cells.foldl (fun t p => t.plot p.1 p.2) s

/-- The cells the set bits of one sprite row fall on. -/
def rowCells (cx cy : Byte) (r : Nat) (row : Byte) : List (Col × Row) :=
  ((List.range 8).filter (spriteBit row)).map (fun b => (wrapCol cx b, wrapRow cy r))

/-- The cells the set bits of the sprite at I fall on. -/
def State.spriteCells (s : State) (cx cy : Byte) (n : Nat) : List (Col × Row) :=
  (List.range n).flatMap (fun r => rowCells cx cy r (s.memRead (s.blockAddress r)))

/-- Plots touch V and fb only. -/
theorem State.plotAll_eq (s : State) (cells : List (Col × Row)) :
    s.plotAll cells = { s with V := (s.plotAll cells).V, fb := (s.plotAll cells).fb } := by
  suffices h : ∃ V fb, s.plotAll cells = { s with V := V, fb := fb } by
    obtain ⟨V, fb, h⟩ := h
    rw [h]
  induction cells generalizing s with
  | nil => exact ⟨s.V, s.fb, rfl⟩
  | cons p ps ih =>
    obtain ⟨V, fb, h⟩ := ih (s.plot p.1 p.2)
    refine ⟨V, fb, h.trans ?_⟩
    rw [State.plot_eq]

theorem State.plotAll_memRead (s : State) (cells : List (Col × Row)) (a : Nat) :
    (s.plotAll cells).memRead a = s.memRead a := by rw [State.plotAll_eq]; rfl

theorem State.plotAll_blockAddress (s : State) (cells : List (Col × Row)) (r : Nat) :
    (s.plotAll cells).blockAddress r = s.blockAddress r := by rw [State.plotAll_eq]; rfl

theorem State.drawRow_eq (s : State) (cx cy : Byte) (r : Nat) (row : Byte) :
    s.drawRow cx cy r row = s.plotAll (rowCells cx cy r row) := by
  unfold State.drawRow State.plotAll rowCells
  rw [List.foldl_map, List.foldl_filter]

/-- Drawing n rows is plotting the cells the sprite covers. -/
theorem State.drawRows_eq (s : State) (cx cy : Byte) (n : Nat) :
    s.drawRows cx cy n = s.plotAll (s.spriteCells cx cy n) := by
  induction n with
  | zero => rfl
  | succ n ih =>
    have h1 : s.drawRows cx cy (n + 1) =
        (s.drawRows cx cy n).drawRow cx cy n
          ((s.drawRows cx cy n).memRead ((s.drawRows cx cy n).blockAddress n)) := by
      simp [State.drawRows, List.range_succ]
    rw [h1, ih, State.plotAll_blockAddress, State.plotAll_memRead, State.drawRow_eq]
    simp [State.plotAll, State.spriteCells, List.range_succ, List.foldl_append]

/-- On distinct cells every plot meets the cell as it was at the start: each one is inverted, and VF ends 1 iff some cell
was 1. -/
theorem State.plotAll_spec (s : State) (cells : List (Col × Row)) (hnd : cells.Nodup) :
    (∀ c q, (s.plotAll cells).pixel c q = if (c, q) ∈ cells then !s.pixel c q else s.pixel c q) ∧
    (∀ k, (s.plotAll cells).v k =
      if flagReg = k ∧ ∃ p ∈ cells, s.pixel p.1 p.2 = true then 1 else s.v k) := by
  induction cells generalizing s with
  | nil => simp [State.plotAll]
  | cons p ps ih =>
    obtain ⟨hp, hps⟩ := List.nodup_cons.mp hnd
    obtain ⟨ih1, ih2⟩ := ih (s.plot p.1 p.2) hps
    have hcons : s.plotAll (p :: ps) = (s.plot p.1 p.2).plotAll ps := rfl
    constructor
    · intro c q
      rw [hcons, ih1, State.plot_at_pixel]
      by_cases h : p = (c, q)
      · subst h; simp [hp]
      · have h' : ¬ (p.1 = c ∧ p.2 = q) := fun e => h (Prod.ext e.1 e.2)
        have h'' : ¬ (c, q) = p := fun e => h e.symm
        simp [h', h'']
    · intro k
      have hiff : (∃ p' ∈ ps, (s.plot p.1 p.2).pixel p'.1 p'.2 = true) ↔ ∃ p' ∈ ps, s.pixel p'.1 p'.2 = true := by
        refine exists_congr fun p' => and_congr_right fun hp' => ?_
        have h' : ¬ (p.1 = p'.1 ∧ p.2 = p'.2) := fun e => hp (by rwa [Prod.ext e.1 e.2])
        rw [State.plot_at_pixel, if_neg h']
      rw [hcons, ih2, State.plot_at_v]
      simp only [hiff, List.mem_cons, exists_eq_or_imp]
      by_cases hk : flagReg = k <;> by_cases h1 : s.pixel p.1 p.2 = true <;> simp [hk, h1]

theorem wrapCol_injOn (cx : Byte) {b b' : Nat} (hb : b < 8) (hb' : b' < 8) (h : wrapCol cx b = wrapCol cx b') : b = b' := by
  have := congrArg Fin.val h
  simp only [wrapCol, Fin.val_ofNat] at this
  omega

theorem wrapRow_injOn (cy : Byte) {r r' : Nat} (hr : r < 32) (hr' : r' < 32) (h : wrapRow cy r = wrapRow cy r') : r = r' := by
  have := congrArg Fin.val h
  simp only [wrapRow, Fin.val_ofNat] at this
  omega

/-- A sprite of at most 32 rows touches no cell twice (R143). -/
theorem State.spriteCells_nodup (s : State) (cx cy : Byte) {n : Nat} (hn : n ≤ 32) : (s.spriteCells cx cy n).Nodup := by
  unfold State.spriteCells
  rw [List.nodup_flatMap]
  constructor
  · intro r _
    refine List.Nodup.map_on ?_ (List.nodup_range.filter _)
    intro b hb b' hb' e
    exact wrapCol_injOn cx (List.mem_range.mp (List.mem_filter.mp hb).1) (List.mem_range.mp (List.mem_filter.mp hb').1)
      (Prod.mk.inj e).1
  · refine List.nodup_range.imp_of_mem ?_
    intro r r' hr hr' hne
    rw [Function.onFun, List.disjoint_left]
    intro p hp hp'
    obtain ⟨b, -, rfl⟩ := List.mem_map.mp hp
    obtain ⟨b', -, e⟩ := List.mem_map.mp hp'
    have h1 := List.mem_range.mp hr
    have h2 := List.mem_range.mp hr'
    exact hne (wrapRow_injOn cy (by omega) (by omega) (Prod.mk.inj e).2.symm)

/-- The cells of the sprite are those `SpriteCovers` names. -/
theorem State.mem_spriteCells (s : State) (x y : Reg) (n : Nat) (c : Col) (q : Row) :
    (c, q) ∈ s.spriteCells (s.v x) (s.v y) n ↔ SpriteCovers s x y n c q := by
  simp only [State.spriteCells, rowCells, SpriteCovers, List.mem_flatMap, List.mem_map, List.mem_filter, List.mem_range,
    spriteBit, State.blockAddress, Prod.mk.injEq, wrapCol, wrapRow, Fin.ext_iff, Fin.val_ofNat]
  constructor
  · rintro ⟨r, hr, b, ⟨hb, hbit⟩, hc, hq⟩
    exact ⟨r, hr, b, hb, hbit, hc.symm, hq.symm⟩
  · rintro ⟨r, hr, b, hb, hbit, hc, hq⟩
    exact ⟨r, hr, b, ⟨hb, hbit⟩, hc.symm, hq.symm⟩

end Sys2Proof.Machine
end

