-- ==== Sys2Proof/Laws/Step.lean ====
section
/-! SUPPORT. All that a fetch, a step and the other operations of the interface can do, and the induction over the sessions a
host can reach. -/

namespace Sys2Proof.Machine

/-! ### Fetch and dispatch -/

/-- All that a fetch can read: the word of the two bytes at a pc of at most 0xFFE. -/
theorem State.fetch_eq_ok {s : State} {op : Word} :
    s.fetch = .ok op ↔
      s.pc.toNat ≤ 0xFFE ∧ op = wordOfBytes (s.memRead s.pc.toNat) (s.memRead (s.pc.toNat + 1)) := by
  unfold State.fetch
  split
  next h => simp only [reduceCtorEq, false_iff]; omega
  next h =>
    simp only [Except.ok.injEq]
    exact ⟨fun e => ⟨by omega, e.symm⟩, fun e => e.2.symm⟩

/-- All that a fetch can raise. -/
theorem State.fetch_eq_error {s : State} {c : Fault} :
    s.fetch = .error c ↔ 0xFFE < s.pc.toNat ∧ c = .memoryOutOfRange (max s.pc.toNat 0x1000) := by
  unfold State.fetch
  split
  next h =>
    simp only [Except.error.injEq]
    exact ⟨fun e => ⟨h, e.symm⟩, fun e => e.2.symm⟩
  next h => simp only [reduceCtorEq, false_iff]; omega

/-- The next instruction is what dispatch makes of the fetched word. -/
theorem State.nextInstr_eq_some {s : State} {i : Instr} :
    s.nextInstr = some i ↔ ∃ op, s.fetch = .ok op ∧ dispatch s.params.unlistedOps op = some i := by
  unfold State.nextInstr
  cases h : s.fetch <;> simp

/-- The fetch reads memory and pc, and nothing else. -/
theorem State.fetch_congr {s t : State} (hm : t.mem = s.mem) (hp : t.pc = s.pc) : t.fetch = s.fetch := by
  unfold State.fetch State.memRead
  rw [hm, hp]

/-- The next instruction depends on memory, pc and the parameters, and nothing else. -/
theorem State.nextInstr_congr {s t : State} (hm : t.mem = s.mem) (hp : t.pc = s.pc) (hq : t.params = s.params) :
    t.nextInstr = s.nextInstr := by
  unfold State.nextInstr
  rw [State.fetch_congr hm hp, hq]

/-! ### A skip -/

theorem pcPastMemory_toNat (choice : Nat) : (pcPastMemory choice).toNat = 0xFFF + choice % 0xF001 := by
  have := Nat.mod_lt choice (show 0xF001 > 0 by decide)
  rw [pcPastMemory, BitVec.toNat_ofNat]
  omega

/-- Every pc above 0xFFE is one the free value may be. -/
theorem pcPastMemory_surjective {w : Word} (h : 0xFFE < w.toNat) : ∃ choice, pcPastMemory choice = w := by
  have := w.isLt
  refine ⟨w.toNat - 0xFFF, BitVec.eq_of_toNat_eq ?_⟩
  rw [pcPastMemory_toNat]
  omega

/-- A skip adds 2 to pc wherever 16 bits hold the sum. -/
theorem State.skipFaulting_pc {s : State} (h : s.pc.toNat + 2 < 2 ^ 16) : s.skipFaulting.pc.toNat = s.pc.toNat + 2 := by
  simp only [State.skipFaulting]
  rw [if_pos h, BitVec.toNat_add]
  exact Nat.mod_eq_of_lt h

/-- A skip whose `pc + 2` is above 0xFFE leaves a pc above 0xFFE (R233). -/
theorem State.skipFaulting_pc_past {s : State} (h : 0xFFE < s.pc.toNat + 2) : 0xFFE < s.skipFaulting.pc.toNat := by
  by_cases hs : s.pc.toNat + 2 < 2 ^ 16
  · rw [State.skipFaulting_pc hs]
    exact h
  · simp only [State.skipFaulting]
    rw [if_neg hs, pcPastMemory_toNat]
    omega

/-! ### The step -/

/-- A step of a loaded machine that stands at an instruction is that instruction. -/
theorem step_of_nextInstr {s : State} {i : Instr} (hl : s.loaded = true) (hi : s.nextInstr = some i) :
    step s = exec i s := by
  obtain ⟨op, hf, hd⟩ := State.nextInstr_eq_some.mp hi
  simp [step, runCycle, hl, hf, hd]

/-- All that a step can do. -/
theorem step_cases (s : State) :
    (s.loaded = false ∧ step s = .refused .notLoaded) ∨
    (s.loaded = true ∧ 0xFFE < s.pc.toNat ∧ step s = .fault (.memoryOutOfRange (max s.pc.toNat 0x1000))) ∨
    (s.loaded = true ∧ (∃ op, s.fetch = .ok op ∧ dispatch s.params.unlistedOps op = none ∧
      step s = .fault (.unknownOpcode op s.pc))) ∨
    (s.loaded = true ∧ ∃ i, s.nextInstr = some i ∧ step s = exec i s) := by
  cases hl : s.loaded with
  | false => exact .inl ⟨rfl, by simp [step, runCycle, hl]⟩
  | true =>
    refine .inr ?_
    cases hf : s.fetch with
    | error c =>
      obtain ⟨hp, rfl⟩ := State.fetch_eq_error.mp hf
      exact .inl ⟨rfl, hp, by simp [step, runCycle, hl, hf, raise]⟩
    | ok op =>
      refine .inr ?_
      cases hd : dispatch s.params.unlistedOps op with
      | none => exact .inl ⟨rfl, op, rfl, hd, by simp [step, runCycle, hl, hf, hd, raise]⟩
      | some i =>
        have hi : s.nextInstr = some i := State.nextInstr_eq_some.mpr ⟨op, hf, hd⟩
        exact .inr ⟨rfl, i, hi, step_of_nextInstr hl hi⟩

/-- A step that answers a next state has run an instruction. -/
theorem step_next {s t : State} (h : step s = .next t) :
    s.loaded = true ∧ ∃ i, s.nextInstr = some i ∧ exec i s = .next t := by
  rcases step_cases s with ⟨-, e⟩ | ⟨-, -, e⟩ | ⟨-, op, -, -, e⟩ | ⟨hl, i, hi, e⟩
  · rw [e] at h; simp at h
  · rw [e] at h; simp at h
  · rw [e] at h; simp at h
  · exact ⟨hl, i, hi, e.symm.trans h⟩

/-- The next instruction has been fetched: pc is at most 0xFFE. -/
theorem State.pc_of_nextInstr {s : State} {i : Instr} (hi : s.nextInstr = some i) : s.pc.toNat ≤ 0xFFE := by
  obtain ⟨op, hf, -⟩ := State.nextInstr_eq_some.mp hi
  exact (State.fetch_eq_ok.mp hf).1

/-! ### A word placed for the next step -/

theorem State.fetch_withOpcode (s : State) (w : Word) : (s.withOpcode w).fetch = .ok w := by
  have hp : ∀ {p : Word}, p.toNat ≤ 0xFFE →
      ({ s with loaded := true, pc := p }.storeWord p.toNat w).fetch = .ok w := by
    intro p hp
    refine State.fetch_eq_ok.mpr ⟨hp, ?_⟩
    show w = wordOfBytes (State.memRead (State.memWriteBytes _ p.toNat [hiByte w, loByte w]) p.toNat)
      (State.memRead (State.memWriteBytes _ p.toNat [hiByte w, loByte w]) (p.toNat + 1))
    rw [State.memRead_memWriteBytes, State.memRead_memWriteBytes, if_pos (by simp), if_pos (by simp),
      show p.toNat - p.toNat = 0 by omega, show p.toNat + 1 - p.toNat = 1 by omega]
    exact (wordOfBytes_hiByte_loByte w).symm
  unfold State.withOpcode
  split
  · exact hp (by decide)
  · exact hp (by omega)

/-- `withFetchWord` does what it is for: the very next step runs the instruction of the word. -/
theorem step_withFetchWord {s : State} {nbits w : Nat} {i : Instr}
    (h : dispatch s.params.unlistedOps (tableWord nbits w) = some i) :
    step (s.withFetchWord nbits w) = exec i (s.withFetchWord nbits w) :=
  step_of_nextInstr rfl (State.nextInstr_eq_some.mpr ⟨_, State.fetch_withOpcode s _, h⟩)

/-! ### tick and reset -/

theorem countDown_toNat (t : Byte) : (countDown t).toNat = t.toNat - 1 := by
  have := t.isLt
  unfold countDown
  split
  next h => rw [BitVec.toNat_sub]; simp; omega
  next h => omega

theorem fontBytes_length (f : Font) : (fontBytes f).length = 80 := by
  have h : ∀ l : List (Vector Byte 5), (l.flatMap Vector.toList).length = 5 * l.length := by
    intro l
    induction l with
    | nil => rfl
    | cons g l ih => rw [List.flatMap_cons, List.length_append, ih, Vector.length_toList, List.length_cons]; omega
  rw [fontBytes, h, Vector.length_toList]

/-- Row r of glyph d is byte 5*d + r of the font (R31). -/
theorem fontBytes_getD (f : Font) (d : Fin 16) (r : Fin 5) :
    (fontBytes f).getD (5 * d.val + r.val) 0 = (f.get d).get r := by
  have h : ∀ (l : List (Vector Byte 5)) (k : Nat) (hk : k < l.length),
      (l.flatMap Vector.toList).getD (5 * k + r.val) 0 = (l[k]).get r := by
    intro l
    induction l with
    | nil => intro k hk; simp at hk
    | cons g l ih =>
      intro k hk
      rw [List.flatMap_cons]
      cases k with
      | zero =>
        rw [List.getD_append _ _ _ _ (by rw [Vector.length_toList]; omega)]
        simp [List.getD_eq_getElem?_getD, Vector.get_eq_getElem]
      | succ k =>
        rw [List.getD_append_right _ _ _ _ (by rw [Vector.length_toList]; omega), Vector.length_toList,
          show 5 * (k + 1) + r.val - 5 = 5 * k + r.val by omega, ih k (by simpa using hk)]
        rfl
  rw [fontBytes, h f.toList d.val (by rw [Vector.length_toList]; exact d.isLt)]
  simp [Vector.get_eq_getElem]

/-- Past the font a font holds nothing. -/
theorem fontBytes_getD_zero (f : Font) {a : Nat} (h : 0x50 ≤ a) : (fontBytes f).getD a 0 = 0 := by
  rw [List.getD_eq_getElem?_getD, List.getElem?_eq_none (by rw [fontBytes_length]; exact h)]
  rfl

/-- What an address reads as when no cell is listed, past the font. -/
theorem background_eq_zero {a : Nat} (h : 0x50 ≤ a) : background a = 0 := fontBytes_getD_zero standardFont h

/-- Seeding the default font lists no cell: it is what unlisted addresses read as. -/
theorem Memory.writeBytes_standardFont : Memory.writeBytes [] 0 (fontBytes standardFont) = [] := by
  refine Memory.eq_of_read (Memory.wf_writeBytes Memory.wf_nil (by rw [fontBytes_length]; decide)) Memory.wf_nil
    fun a => ?_
  rw [Memory.read_writeBytes]
  split
  · rfl
  · rfl

/-- A cleared state's memory: the font, then zeros. -/
theorem State.cleared_memRead (s : State) (a : Nat) : s.cleared.memRead a = (fontBytes s.params.font).getD a 0 := by
  show (Memory.writeBytes [] 0 (fontBytes s.params.font)).read a = _
  rw [Memory.read_writeBytes]
  split
  · rfl
  next h =>
    rw [fontBytes_length] at h
    have h' : 0x50 ≤ a := by omega
    rw [fontBytes_getD_zero _ h']
    exact background_eq_zero h'

theorem State.cleared_canonical (s : State) : MemCanonical s.cleared := by
  show Memory.wf (Memory.writeBytes [] 0 (fontBytes s.params.font)) = true
  exact Memory.wf_writeBytes Memory.wf_nil (by rw [fontBytes_length]; decide)

/-- A load that succeeds. -/
theorem resetImage_loads (s : State) {image : List Byte} (h : image.length ≤ maxImage) :
    resetImage (some image) s = ({ s.cleared.memWriteBytes loadBase image with loaded := true }, none) := by
  have : loadFailure (some image) = none := by simp only [loadFailure]; rw [if_neg (by omega)]
  simp [resetImage, this]

/-- A load that fails. -/
theorem resetImage_fails (s : State) {image : Option (List Byte)} {reason : LoadFailure}
    (h : loadFailure image = some reason) :
    resetImage image s = ({ s.cleared with loaded := false }, some (.programLoadError reason)) := by
  simp [resetImage, h]

/-- All that a reset can do. -/
theorem resetImage_cases (image : Option (List Byte)) (s : State) :
    (∃ bytes, image = some bytes ∧ bytes.length ≤ maxImage ∧
      resetImage image s = ({ s.cleared.memWriteBytes loadBase bytes with loaded := true }, none)) ∨
    (∃ reason, loadFailure image = some reason ∧
      resetImage image s = ({ s.cleared with loaded := false }, some (.programLoadError reason))) := by
  cases h : loadFailure image with
  | some reason => exact .inr ⟨reason, rfl, resetImage_fails s h⟩
  | none =>
    cases image with
    | none => simp [loadFailure] at h
    | some bytes =>
      have hl : bytes.length ≤ maxImage := by
        by_contra hc
        simp only [loadFailure] at h
        rw [if_pos (by omega)] at h
        simp at h
      exact .inl ⟨bytes, rfl, hl, resetImage_loads s hl⟩

/-! ### Sessions -/

/-- What holds after every reset and is kept by every operation holds of every session a host can reach. -/
theorem Reached.induct {P : Session → Prop} (hreset : ∀ image σ, P (resetSession image σ).1)
    (hop : ∀ σ τ o reply, P σ → perform o σ = some (τ, reply) → P τ) {σ : Session} (h : Reached σ) : P σ := by
  induction h with
  | reset image σ => exact hreset image σ
  | op _ ho ih => exact hop _ _ _ _ ih ho

end Sys2Proof.Machine
end

