-- ==== Sys2Proof/Laws/Exec.lean ====
section
/-! SUPPORT. What a next state of each instruction can be: the inversion that a claim over all instructions goes through, so that it
unfolds no meaning. -/

namespace Sys2Proof.Machine

/-- The next states `exec i s` can answer, up to the values an instruction of the ALU or a load writes. -/
def NextShape (s t : State) : Instr → Prop
  | .cls => t = s.clearFb.raiseDrawFlag.advance
  | .ret => ∃ h : 0 < s.sp.val,
      t = { s with sp := ⟨s.sp.val - 1, by omega⟩, pc := s.stackEntry ⟨s.sp.val - 1, by omega⟩ + 2 }
  | .jp nnn => t = s.setPc nnn
  | .call nnn => ∃ h : s.sp.val < 16,
      t = { s with stack := s.stack.set s.sp.val s.pc h, sp := ⟨s.sp.val + 1, Nat.succ_lt_succ h⟩, pc := nnn }
  | .seImm _ _ => t = s.setPc (s.pc + 2) ∨ t = s.setPc (s.pc + 4)
  | .sneImm _ _ => t = s.setPc (s.pc + 2) ∨ t = s.setPc (s.pc + 4)
  | .seReg _ _ => t = s.setPc (s.pc + 2) ∨ t = s.setPc (s.pc + 4)
  | .ldImm x _ => ∃ b, t = (s.setV x b).advance
  | .addImm x _ => ∃ b, t = (s.setV x b).advance
  | .ldReg x _ => ∃ b, t = (s.setV x b).advance
  | .orReg x _ => ∃ b, t = (s.setV x b).advance
  | .andReg x _ => ∃ b, t = (s.setV x b).advance
  | .xorReg x _ => ∃ b, t = (s.setV x b).advance
  | .addReg x _ => ∃ a b, t = ((s.setV x a).setVF b).advance
  | .subReg x _ => ∃ a b, t = ((s.setVF a).setV x b).advance
  | .shr x _ => ∃ a b, t = ((s.setVF a).setV x b).advance
  | .subnReg x _ => ∃ a b, t = ((s.setVF a).setV x b).advance
  | .shl x _ => ∃ a b, t = ((s.setVF a).setV x b).advance
  | .sneReg _ _ => t = s.setPc (s.pc + 2) ∨ t = s.setPc (s.pc + 4)
  | .ldI nnn => t = (s.setI nnn).advance
  | .jpV0 nnn => t = s.setPc (s.jumpTarget nnn)
  | .rnd x _ => ∃ b, t = (s.setV x b).advance.useDraw
  | .drw _ _ _ => ∃ V fb, t = ({ s with V := V, fb := fb } : State).raiseDrawFlag.advance
  | .skp _ => t = s.setPc (s.pc + 2) ∨ t = s.setPc (s.pc + 4)
  | .sknp _ => t = s.setPc (s.pc + 2) ∨ t = s.setPc (s.pc + 4)
  | .ldVxDT x => ∃ b, t = (s.setV x b).advance
  | .ldVxK x => t = s ∨ ∃ b, t = (s.setV x b).advance
  | .ldDTVx x => t = (s.setDT (s.v x)).advance
  | .ldSTVx x => t = (s.setST (s.v x)).advance
  | .addIVx _ => ∃ w b, t = ((s.setI w).setVF b).advance
  | .ldFVx _ => ∃ w, t = (s.setI w).advance
  | .ldBVx x => s.I.toNat + 3 ≤ 0x1000 ∧ t = (s.memWriteBytes s.I.toNat (bcdDigits (s.v x))).advance
  | .ldMemVx x => s.I.toNat + blockCount x ≤ 0x1000 ∧
      t = ((s.memWriteBytes s.I.toNat (s.blockValues x)).setI (indexPlus s.I (blockCount x))).advance
  | .ldVxMem _ => ∃ V w, t = (({ s with V := V } : State).setI w).advance

theorem skip_cases (s : State) (cond : Bool) :
    s.skipIf cond = s.setPc (s.pc + 2) ∨ s.skipIf cond = s.setPc (s.pc + 4) := by
  cases cond
  · exact .inl rfl
  · exact .inr rfl

/-- A word that the policy of VF operands lets run. -/
theorem withVfPolicy_next {s t : State} {named : List Reg} {run : Result} (h : withVfPolicy named s run = .next t) :
    run = .next t := by
  rcases withVfPolicy_cases s named run with ⟨-, e⟩ | ⟨-, -, e⟩
  · exact e.symm.trans h
  · rw [e] at h
    simp at h

/-- Every next state of an instruction has its shape. -/
theorem exec_next {i : Instr} {s t : State} (h : exec i s = .next t) : NextShape s t i := by
  cases i
  case cls => cases h; rfl
  case ret =>
    simp only [exec, execRet] at h
    split at h
    · simp [raise] at h
    · next e u hp =>
      obtain ⟨h0, rfl, rfl⟩ := State.pop_eq_some.mp hp
      cases h; exact ⟨h0, rfl⟩
  case call w =>
    simp only [exec, execCall] at h
    split at h
    · simp [raise] at h
    · next u hp =>
      obtain ⟨h0, rfl⟩ := State.push_eq_some.mp hp
      cases h; exact ⟨h0, rfl⟩
  case jp => cases h; rfl
  case seImm => cases h; exact skip_cases s _
  case sneImm => cases h; exact skip_cases s _
  case seReg => cases h; exact skip_cases s _
  case sneReg => cases h; exact skip_cases s _
  case skp =>
    simp only [exec, execSkp, skipOnKey] at h
    split at h
    · simp [raise] at h
    · cases h; exact skip_cases s _
  case sknp =>
    simp only [exec, execSknp, skipOnKey] at h
    split at h
    · simp [raise] at h
    · cases h; exact skip_cases s _
  case jpV0 => cases h; rfl
  case ldI => cases h; rfl
  case ldDTVx => cases h; rfl
  case ldSTVx => cases h; rfl
  case rnd => cases h; exact ⟨_, rfl⟩
  case addIVx => cases h; exact ⟨_, _, rfl⟩
  case ldFVx => cases h; exact ⟨_, rfl⟩
  case ldVxK =>
    simp only [exec, execLdVxK] at h
    split at h
    · cases h; exact .inl rfl
    · cases h; exact .inr ⟨_, rfl⟩
  case addReg => cases withVfPolicy_next h; exact ⟨_, _, rfl⟩
  case subReg => cases withVfPolicy_next h; exact ⟨_, _, rfl⟩
  case subnReg => cases withVfPolicy_next h; exact ⟨_, _, rfl⟩
  case shr => cases withVfPolicy_next h; exact ⟨_, _, rfl⟩
  case shl => cases withVfPolicy_next h; exact ⟨_, _, rfl⟩
  case drw =>
    obtain ⟨-, h⟩ := withRange_next.mp h
    rw [State.drawRows_eq, State.plotAll_eq] at h
    cases h; exact ⟨_, _, rfl⟩
  case ldBVx => obtain ⟨h1, h⟩ := withRange_next.mp h; cases h; exact ⟨by omega, rfl⟩
  case ldMemVx x => obtain ⟨h1, h⟩ := withRange_next.mp h; cases h; exact ⟨by simp only [blockCount] at *; omega, rfl⟩
  case ldVxMem =>
    obtain ⟨h1, h⟩ := withRange_next.mp h
    rw [State.setVs_eq] at h
    cases h; exact ⟨_, _, rfl⟩
  all_goals exact ⟨_, by cases h; rfl⟩

end Sys2Proof.Machine
end

