-- ==== Sys2Proof/Laws/Flags.lean ====
section
/-! SUPPORT. The flags and the 8-bit results as numbers. -/

namespace Sys2Proof.Machine

theorem flagByte_decide (p : Prop) [Decidable p] : flagByte (decide p) = if p then 1 else 0 := by
  by_cases h : p <;> simp [flagByte, h]

theorem carryFlag_eq (a b : Byte) : carryFlag a b = if a.toNat + b.toNat > 255 then 1 else 0 := flagByte_decide _

theorem noBorrowFlag_eq (a b : Byte) : noBorrowFlag a b = if a.toNat ≥ b.toNat then 1 else 0 := flagByte_decide _

theorem indexOverflowFlag_eq (w : Word) (a : Byte) :
    indexOverflowFlag w a = if w.toNat + a.toNat > 0xFFF then 1 else 0 := flagByte_decide _

theorem shiftedOutRight_toNat (a : Byte) : (shiftedOutRight a).toNat = a.toNat % 2 := by simp [shiftedOutRight]

theorem shiftedOutLeft_toNat (a : Byte) : (shiftedOutLeft a).toNat = a.toNat / 128 := by
  have := a.isLt
  simp [shiftedOutLeft, Nat.shiftRight_eq_div_pow]
  omega

theorem addResult_toNat (a b : Byte) : (addResult a b).toNat = (a.toNat + b.toNat) % 256 := by simp [addResult]

theorem subResult_toNat (a b : Byte) : (subResult a b).toNat = (a.toNat + 256 - b.toNat) % 256 := by
  have := a.isLt
  have := b.isLt
  simp [subResult, BitVec.toNat_sub]
  omega

theorem shrResult_toNat (a : Byte) : (shrResult a).toNat = a.toNat / 2 := by
  simp [shrResult, Nat.shiftRight_eq_div_pow]

theorem shlResult_toNat (a : Byte) : (shlResult a).toNat = a.toNat * 2 % 256 := by simp [shlResult, Nat.shiftLeft_eq]

theorem indexPlus_toNat (w : Word) (k : Nat) : (indexPlus w k).toNat = (w.toNat + k) % 2 ^ 16 := by simp [indexPlus]

end Sys2Proof.Machine
end

