-- ==== Sys2Proof/Laws/PerInstr.lean ====
section
/-! SUPPORT. Statements made of every instruction, one lemma per constructor. -/

namespace Sys2Proof

theorem encodeNNN_mask (o : BitVec 4) (nnn : Word) : encodeNNN o nnn &&& 0xF000 = encodeNNN o 0 := by
  have h : (0xF000 : Word) = ((0xF#4 ++ 0#12 : BitVec (4 + 12)) : Word) := by decide
  rw [h]
  show (o ++ nnn.setWidth 12) &&& (0xF#4 ++ 0#12) = o ++ (0 : Word).setWidth 12
  rw [BitVec.and_append]
  congr 1
  · exact BitVec.and_allOnes
  · simp

theorem encodeXNN_mask_family (o : BitVec 4) (x : Reg) (nn : Byte) : encodeXNN o x nn &&& 0xF000 = encodeXNN o 0 0 := by
  have h : (0xF000 : Word) = ((0xF#4 ++ 0#4 ++ 0#8 : BitVec (4 + 4 + 8)) : Word) := by decide
  rw [h]
  show (o ++ (BitVec.ofFin x : BitVec 4) ++ nn) &&& (0xF#4 ++ 0#4 ++ 0#8) = o ++ 0#4 ++ 0#8
  rw [BitVec.and_append, BitVec.and_append]
  congr 1
  · congr 1
    · exact BitVec.and_allOnes
    · simp
  · simp

theorem encodeXNN_mask_function (o : BitVec 4) (x : Reg) (nn : Byte) : encodeXNN o x nn &&& 0xF0FF = encodeXNN o 0 nn := by
  have h : (0xF0FF : Word) = ((0xF#4 ++ 0#4 ++ 0xFF#8 : BitVec (4 + 4 + 8)) : Word) := by decide
  rw [h]
  show (o ++ (BitVec.ofFin x : BitVec 4) ++ nn) &&& (0xF#4 ++ 0#4 ++ 0xFF#8) = o ++ 0#4 ++ nn
  rw [BitVec.and_append, BitVec.and_append]
  congr 1
  · congr 1
    · exact BitVec.and_allOnes
    · simp
  · exact BitVec.and_allOnes

theorem encodeXYN_mask_family (o : BitVec 4) (x y : Reg) (n : BitVec 4) :
    encodeXYN o x y n &&& 0xF000 = encodeXYN o 0 0 0 := by
  have h : (0xF000 : Word) = ((0xF#4 ++ 0#4 ++ 0#4 ++ 0#4 : BitVec (4 + 4 + 4 + 4)) : Word) := by decide
  rw [h]
  show (o ++ (BitVec.ofFin x : BitVec 4) ++ (BitVec.ofFin y : BitVec 4) ++ n) &&& (0xF#4 ++ 0#4 ++ 0#4 ++ 0#4) =
    o ++ 0#4 ++ 0#4 ++ 0#4
  rw [BitVec.and_append, BitVec.and_append, BitVec.and_append]
  congr 1
  · congr 1
    · congr 1
      · exact BitVec.and_allOnes
      · simp
    · simp
  · simp

theorem encodeXYN_mask_function (o : BitVec 4) (x y : Reg) (n : BitVec 4) :
    encodeXYN o x y n &&& 0xF00F = encodeXYN o 0 0 n := by
  have h : (0xF00F : Word) = ((0xF#4 ++ 0#4 ++ 0#4 ++ 0xF#4 : BitVec (4 + 4 + 4 + 4)) : Word) := by decide
  rw [h]
  show (o ++ (BitVec.ofFin x : BitVec 4) ++ (BitVec.ofFin y : BitVec 4) ++ n) &&& (0xF#4 ++ 0#4 ++ 0#4 ++ 0xF#4) =
    o ++ 0#4 ++ 0#4 ++ n
  rw [BitVec.and_append, BitVec.and_append, BitVec.and_append]
  congr 1
  · congr 1
    · congr 1
      · exact BitVec.and_allOnes
      · simp
    · simp
  · exact BitVec.and_allOnes

/-! ### The fields of a word that has the fixed bits of a row -/

theorem opFamily_of_mask {op : Word} {o : BitVec 4} (h : op &&& 0xF000 = encodeNNN o 0) :
    (opFamily op).toNat = o.toNat := by
  rw [← encodeNNN_fields (op := op) rfl, encodeNNN_mask] at h
  have := congrArg opFamily h
  rw [opFamily_encodeNNN, opFamily_encodeNNN] at this
  rw [this]

theorem fields_of_mask_function {op : Word} {o : BitVec 4} {nn : Byte} (h : op &&& 0xF0FF = encodeXNN o 0 nn) :
    (opFamily op).toNat = o.toNat ∧ (opNN op).toNat = nn.toNat := by
  rw [← encodeXNN_fields (op := op) rfl rfl, encodeXNN_mask_function] at h
  have h1 := congrArg opFamily h
  have h2 := congrArg opNN h
  rw [opFamily_encodeXNN, opFamily_encodeXNN] at h1
  rw [opNN_encodeXNN, opNN_encodeXNN] at h2
  rw [h1, h2]
  exact ⟨rfl, rfl⟩

theorem fields_of_mask_nibble {op : Word} {o n : BitVec 4} (h : op &&& 0xF00F = encodeXYN o 0 0 n) :
    (opFamily op).toNat = o.toNat ∧ opN op = n.toNat := by
  have hn : (BitVec.ofNat 4 (opN op)).toNat = opN op := by rw [opN_eq]; simp
  rw [← encodeXYN_fields (op := op) rfl hn.symm, encodeXYN_mask_function] at h
  have h1 := congrArg opFamily h
  have h2 := congrArg opN h
  rw [opFamily_encodeXYN, opFamily_encodeXYN] at h1
  rw [opN_encodeXYN, opN_encodeXYN, hn] at h2
  rw [h1]
  exact ⟨rfl, h2⟩

end Sys2Proof

namespace Sys2Proof.Laws.FixedBits

/-- The word of an instruction has the fixed bits of its row of `opcode_table.json`: `op & mask = match` (R91). -/
def Statement (i : Instr) : Prop := encode i &&& i.row.mask = i.row.value

theorem cls : Statement .cls := rfl
theorem ret : Statement .ret := rfl
theorem jp (nnn : Word) : Statement (.jp nnn) := encodeNNN_mask 0x1 nnn
theorem call (nnn : Word) : Statement (.call nnn) := encodeNNN_mask 0x2 nnn
theorem seImm (x : Reg) (nn : Byte) : Statement (.seImm x nn) := encodeXNN_mask_family 0x3 x nn
theorem sneImm (x : Reg) (nn : Byte) : Statement (.sneImm x nn) := encodeXNN_mask_family 0x4 x nn
theorem seReg (x y : Reg) : Statement (.seReg x y) := encodeXYN_mask_function 0x5 x y 0x0
theorem ldImm (x : Reg) (nn : Byte) : Statement (.ldImm x nn) := encodeXNN_mask_family 0x6 x nn
theorem addImm (x : Reg) (nn : Byte) : Statement (.addImm x nn) := encodeXNN_mask_family 0x7 x nn
theorem ldReg (x y : Reg) : Statement (.ldReg x y) := encodeXYN_mask_function 0x8 x y 0x0
theorem orReg (x y : Reg) : Statement (.orReg x y) := encodeXYN_mask_function 0x8 x y 0x1
theorem andReg (x y : Reg) : Statement (.andReg x y) := encodeXYN_mask_function 0x8 x y 0x2
theorem xorReg (x y : Reg) : Statement (.xorReg x y) := encodeXYN_mask_function 0x8 x y 0x3
theorem addReg (x y : Reg) : Statement (.addReg x y) := encodeXYN_mask_function 0x8 x y 0x4
theorem subReg (x y : Reg) : Statement (.subReg x y) := encodeXYN_mask_function 0x8 x y 0x5
theorem shr (x y : Reg) : Statement (.shr x y) := encodeXYN_mask_function 0x8 x y 0x6
theorem subnReg (x y : Reg) : Statement (.subnReg x y) := encodeXYN_mask_function 0x8 x y 0x7
theorem shl (x y : Reg) : Statement (.shl x y) := encodeXYN_mask_function 0x8 x y 0xE
theorem sneReg (x y : Reg) : Statement (.sneReg x y) := encodeXYN_mask_function 0x9 x y 0x0
theorem ldI (nnn : Word) : Statement (.ldI nnn) := encodeNNN_mask 0xA nnn
theorem jpV0 (nnn : Word) : Statement (.jpV0 nnn) := encodeNNN_mask 0xB nnn
theorem rnd (x : Reg) (nn : Byte) : Statement (.rnd x nn) := encodeXNN_mask_family 0xC x nn
theorem drw (x y : Reg) (n : Nat) : Statement (.drw x y n) := encodeXYN_mask_family 0xD x y (BitVec.ofNat 4 n)
theorem skp (x : Reg) : Statement (.skp x) := encodeXNN_mask_function 0xE x 0x9E
theorem sknp (x : Reg) : Statement (.sknp x) := encodeXNN_mask_function 0xE x 0xA1
theorem ldVxDT (x : Reg) : Statement (.ldVxDT x) := encodeXNN_mask_function 0xF x 0x07
theorem ldVxK (x : Reg) : Statement (.ldVxK x) := encodeXNN_mask_function 0xF x 0x0A
theorem ldDTVx (x : Reg) : Statement (.ldDTVx x) := encodeXNN_mask_function 0xF x 0x15
theorem ldSTVx (x : Reg) : Statement (.ldSTVx x) := encodeXNN_mask_function 0xF x 0x18
theorem addIVx (x : Reg) : Statement (.addIVx x) := encodeXNN_mask_function 0xF x 0x1E
theorem ldFVx (x : Reg) : Statement (.ldFVx x) := encodeXNN_mask_function 0xF x 0x29
theorem ldBVx (x : Reg) : Statement (.ldBVx x) := encodeXNN_mask_function 0xF x 0x33
theorem ldMemVx (x : Reg) : Statement (.ldMemVx x) := encodeXNN_mask_function 0xF x 0x55
theorem ldVxMem (x : Reg) : Statement (.ldVxMem x) := encodeXNN_mask_function 0xF x 0x65

end Sys2Proof.Laws.FixedBits
end

