-- ==== Sys2Proof/Tests/Slice0.lean ====
section
/-! SUPPORT. Tests on fixed values, and for every statement with hypotheses a witness that meets them. Expected values come from
spec/95_test_vectors.md (the vector's id stands in the comment) and from the encodings of spec/opcode_table.json. -/

namespace Sys2Proof.Tests

open Sys2Proof.Machine

/-! ### Helpers -/

/-- The state after reset: pc 0x200, every register 0. -/
def s0 : State := State.reset

def regs (l : List (Reg × Byte)) (s : State) : State := l.foldl (fun t p => t.setV p.1 p.2) s

def place (a : Nat) (bs : List Byte) (s : State) : State := s.memWriteBytes a bs

/-- `n` entries in use, the topmost one `w`. -/
def stacked (n : Fin 17) (w : Word) (s : State) : State :=
  { s with sp := n, stack := s.stack.setIfInBounds (n.val - 1) w }

def press (k : Key) (s : State) : State := setKey k true s

def refusingVF (s : State) : State := { s with params := { s.params with vfOperandPolicy := .refuse } }

def refusingOps (s : State) : State := { s with params := { s.params with unlistedOps := .refuse } }

def unloaded (s : State) : State := { s with loaded := false }

/-- A step that fetches the word `w`. -/
def runWord (w : Nat) (s : State) : Result := step (s.withFetchWord 16 w)

/-- What is read of the state after a step that fetches `w`. -/
def after {α : Type} (w : Nat) (s : State) (f : State → α) : Option α := (nextState? (runWord w s)).map f


/-! ### Ill-formed instructions are refused (30_encoding.md R71, R73) -/

theorem test_illformed_jp : Instr.wf (.jp 0x1000 : Instr) = false := by decide

theorem test_illformed_call : Instr.wf (.call 0xF000 : Instr) = false := by decide

theorem test_illformed_ldI : Instr.wf (.ldI 0x1000 : Instr) = false := by decide

theorem test_illformed_jpV0 : Instr.wf (.jpV0 0xFFFF : Instr) = false := by decide

theorem test_illformed_drw : Instr.wf (.drw 0 0 16 : Instr) = false := by decide

theorem test_wellformed_bounds : Instr.wf (.jp 0xFFF) = true ∧ Instr.wf (.drw 0xF 0xF 15) = true ∧ Instr.wf (.rnd 0xF 0xFF) = true := by decide


/-! ### Every constructor's decoding, by a word written out from opcode_table.json -/

theorem test_decode_cls : decodeTableWord 16 0x00E0 = some (.cls) ∧ encode (.cls) = 0x00E0 := by decide

theorem test_decode_ret : decodeTableWord 16 0x00EE = some (.ret) ∧ encode (.ret) = 0x00EE := by decide

theorem test_decode_jp : decodeTableWord 16 0x1234 = some (.jp 0x234) ∧ encode (.jp 0x234) = 0x1234 := by decide

theorem test_decode_call : decodeTableWord 16 0x2ABC = some (.call 0xABC) ∧ encode (.call 0xABC) = 0x2ABC := by decide

theorem test_decode_seImm : decodeTableWord 16 0x3A5C = some (.seImm 0xA 0x5C) ∧ encode (.seImm 0xA 0x5C) = 0x3A5C := by decide

theorem test_decode_sneImm : decodeTableWord 16 0x4B6D = some (.sneImm 0xB 0x6D) ∧ encode (.sneImm 0xB 0x6D) = 0x4B6D := by decide

theorem test_decode_seReg : decodeTableWord 16 0x5AB0 = some (.seReg 0xA 0xB) ∧ encode (.seReg 0xA 0xB) = 0x5AB0 := by decide

theorem test_decode_ldImm : decodeTableWord 16 0x6A42 = some (.ldImm 0xA 0x42) ∧ encode (.ldImm 0xA 0x42) = 0x6A42 := by decide

theorem test_decode_addImm : decodeTableWord 16 0x7006 = some (.addImm 0 0x06) ∧ encode (.addImm 0 0x06) = 0x7006 := by decide

theorem test_decode_ldReg : decodeTableWord 16 0x8120 = some (.ldReg 1 2) ∧ encode (.ldReg 1 2) = 0x8120 := by decide

theorem test_decode_orReg : decodeTableWord 16 0x8F11 = some (.orReg 0xF 1) ∧ encode (.orReg 0xF 1) = 0x8F11 := by decide

theorem test_decode_andReg : decodeTableWord 16 0x8342 = some (.andReg 3 4) ∧ encode (.andReg 3 4) = 0x8342 := by decide

theorem test_decode_xorReg : decodeTableWord 16 0x8563 = some (.xorReg 5 6) ∧ encode (.xorReg 5 6) = 0x8563 := by decide

theorem test_decode_addReg : decodeTableWord 16 0x8AB4 = some (.addReg 0xA 0xB) ∧ encode (.addReg 0xA 0xB) = 0x8AB4 := by decide

theorem test_decode_subReg : decodeTableWord 16 0x8785 = some (.subReg 7 8) ∧ encode (.subReg 7 8) = 0x8785 := by decide

theorem test_decode_shr : decodeTableWord 16 0x8376 = some (.shr 3 7) ∧ encode (.shr 3 7) = 0x8376 := by decide

theorem test_decode_subnReg : decodeTableWord 16 0x89A7 = some (.subnReg 9 0xA) ∧ encode (.subnReg 9 0xA) = 0x89A7 := by decide

theorem test_decode_shl : decodeTableWord 16 0x8CDE = some (.shl 0xC 0xD) ∧ encode (.shl 0xC 0xD) = 0x8CDE := by decide

theorem test_decode_sneReg : decodeTableWord 16 0x9120 = some (.sneReg 1 2) ∧ encode (.sneReg 1 2) = 0x9120 := by decide

theorem test_decode_ldI : decodeTableWord 16 0xA300 = some (.ldI 0x300) ∧ encode (.ldI 0x300) = 0xA300 := by decide

theorem test_decode_jpV0 : decodeTableWord 16 0xB5FF = some (.jpV0 0x5FF) ∧ encode (.jpV0 0x5FF) = 0xB5FF := by decide

theorem test_decode_rnd : decodeTableWord 16 0xC30F = some (.rnd 3 0x0F) ∧ encode (.rnd 3 0x0F) = 0xC30F := by decide

theorem test_decode_drw : decodeTableWord 16 0xDAB7 = some (.drw 0xA 0xB 7) ∧ encode (.drw 0xA 0xB 7) = 0xDAB7 := by decide

theorem test_decode_skp : decodeTableWord 16 0xE59E = some (.skp 5) ∧ encode (.skp 5) = 0xE59E := by decide

theorem test_decode_sknp : decodeTableWord 16 0xE6A1 = some (.sknp 6) ∧ encode (.sknp 6) = 0xE6A1 := by decide

theorem test_decode_ldVxDT : decodeTableWord 16 0xF307 = some (.ldVxDT 3) ∧ encode (.ldVxDT 3) = 0xF307 := by decide

theorem test_decode_ldVxK : decodeTableWord 16 0xF20A = some (.ldVxK 2) ∧ encode (.ldVxK 2) = 0xF20A := by decide

theorem test_decode_ldDTVx : decodeTableWord 16 0xF415 = some (.ldDTVx 4) ∧ encode (.ldDTVx 4) = 0xF415 := by decide

theorem test_decode_ldSTVx : decodeTableWord 16 0xF518 = some (.ldSTVx 5) ∧ encode (.ldSTVx 5) = 0xF518 := by decide

theorem test_decode_addIVx : decodeTableWord 16 0xF11E = some (.addIVx 1) ∧ encode (.addIVx 1) = 0xF11E := by decide

theorem test_decode_ldFVx : decodeTableWord 16 0xF429 = some (.ldFVx 4) ∧ encode (.ldFVx 4) = 0xF429 := by decide

theorem test_decode_ldBVx : decodeTableWord 16 0xFA33 = some (.ldBVx 0xA) ∧ encode (.ldBVx 0xA) = 0xFA33 := by decide

theorem test_decode_ldMemVx : decodeTableWord 16 0xF255 = some (.ldMemVx 2) ∧ encode (.ldMemVx 2) = 0xF255 := by decide

theorem test_decode_ldVxMem : decodeTableWord 16 0xFF65 = some (.ldVxMem 0xF) ∧ encode (.ldVxMem 0xF) = 0xFF65 := by decide

-- E3, E4, E5, E7, CF16c, E8, E9, E11
theorem test_decode_unknown : decodeWord 0x01E0 = none ∧ decodeWord 0x0000 = none ∧ decodeWord 0x5121 = none ∧ decodeWord 0x812F = none ∧
    decodeWord 0x912E = none ∧ decodeWord 0xE59F = none ∧ decodeWord 0xF0FF = none ∧ decodeWord 0xFFFF = none := by decide

-- E10, I5, I5b
theorem test_dispatch_unlisted : dispatch .incl 0x7006 = some (.addImm 0 6) ∧ dispatch .refuse 0x7006 = none ∧ dispatch .refuse 0xA300 = none ∧
    dispatch .refuse 0xC30F = none ∧ dispatch .refuse 0x6105 = some (.ldImm 1 5) := by decide

-- R50, R70
theorem test_decode_bytes : decodeFirst [0x6A, 0x42, 0xFF] = some (.ldImm 0xA 0x42) ∧ decodeFirst [0x6A] = none ∧ decodeFirst [] = none ∧
    decodeFirst [0x81, 0x28] = none := by decide

-- opcode_table.json has 34 rows of different names
theorem test_table_rows : opcodeTable.length = 34 ∧ (opcodeTable.map OpcodeRow.mnemonic).Nodup := by decide

-- R76: 43954 of the 65536 words are instructions (each row stands for 2 ^ (free bits) words)
theorem test_table_words : (opcodeTable.map fun row =>
    2 ^ ((List.range 16).filter fun k => !row.mask.getLsbD k).length).sum = 43954 := by decide


/-! ### Control flow -/

-- CF1
theorem test_cls : after 0x00E0 (s0.setPixel 3 4 true) (fun t => (t.pixel 3 4, t.drawFlag, t.pc)) = some (false, true, 0x202) := by decide

-- CF4
theorem test_ret : after 0x00EE (stacked 1 0x200 (s0.setPc 0x300)) (fun t => (t.sp, t.pc, t.stackEntry 0)) = some (0, 0x202, 0x200) := by decide

-- CF3
theorem test_ret_empty : fault? (runWord 0x00EE (s0.setPc 0x300)) = some .stackUnderflow := by decide

-- CF6
theorem test_jp : after 0x1234 s0 State.pc = some 0x234 := by decide

-- CF10
theorem test_call : after 0x2300 (stacked 15 0 s0) (fun t => (t.stackEntry 15, t.sp, t.pc)) = some (0x200, 16, 0x300) := by decide

-- CF11
theorem test_call_full : fault? (runWord 0x2300 (stacked 16 0 s0)) = some .stackOverflow := by decide

-- CF12, CF12b
theorem test_seImm : after 0x3210 (regs [(2, 0x10)] s0) State.pc = some 0x204 ∧ after 0x3210 (regs [(2, 0x11)] s0) State.pc = some 0x202 := by decide

-- CF13, CF13b
theorem test_sneImm : after 0x4210 (regs [(2, 0x10)] s0) State.pc = some 0x202 ∧ after 0x4210 (regs [(2, 0x11)] s0) State.pc = some 0x204 := by decide

-- CF14, CF14b
theorem test_seReg : after 0x5120 (regs [(1, 7), (2, 7)] s0) State.pc = some 0x204 ∧ after 0x5120 (regs [(1, 7), (2, 8)] s0) State.pc = some 0x202 := by decide

-- CF16, CF16b
theorem test_sneReg : after 0x9120 (regs [(1, 7), (2, 8)] s0) State.pc = some 0x204 ∧ after 0x9120 (regs [(1, 7), (2, 7)] s0) State.pc = some 0x202 := by decide

-- CF17b
theorem test_jpV0 : after 0xBFFF (regs [(0, 0xFF)] s0) State.pc = some 0x10FE := by decide

-- CF17c
theorem test_jpV0_reads_V0 : after 0xB5FF (regs [(5, 9)] s0) State.pc = some 0x5FF := by decide


/-! ### Arithmetic and logic -/

-- A1
theorem test_ldReg : after 0x8120 (regs [(1, 0x00), (2, 0xAB)] s0) (fun t => (t.v 1, t.v 0xF, t.pc)) = some (0xAB, 0, 0x202) := by decide

-- A2
theorem test_orReg : after 0x8121 (regs [(1, 0xF0), (2, 0x0F)] s0) (fun t => (t.v 1, t.v 0xF, t.pc)) = some (0xFF, 0, 0x202) := by decide

-- A3
theorem test_andReg : after 0x8122 (regs [(1, 0xF0), (2, 0x3C)] s0) (fun t => (t.v 1, t.v 0xF, t.pc)) = some (0x30, 0, 0x202) := by decide

-- A4
theorem test_xorReg : after 0x8123 (regs [(1, 0xF0), (2, 0x3C)] s0) (fun t => (t.v 1, t.v 0xF, t.pc)) = some (0xCC, 0, 0x202) := by decide

-- A5
theorem test_addReg : after 0x8124 (regs [(1, 0xC8), (2, 0x64)] s0) (fun t => (t.v 1, t.v 0xF, t.pc)) = some (0x2C, 1, 0x202) := by decide

-- A6
theorem test_addReg_flag_last : after 0x8F14 (regs [(0xF, 0x80), (1, 0x90)] s0) (fun t => t.v 0xF) = some 0x01 := by decide

-- A8
theorem test_subReg : after 0x8125 (regs [(1, 0x05), (2, 0x07)] s0) (fun t => (t.v 1, t.v 0xF, t.pc)) = some (0xFE, 0, 0x202) := by decide

-- A10
theorem test_subReg_flag_first : after 0x81F5 (regs [(1, 0x03), (0xF, 0x05)] s0) (fun t => (t.v 0xF, t.v 1)) = some (0x00, 0x03) := by decide

-- A12d
theorem test_shr : after 0x8376 (regs [(3, 0x04), (7, 0xFF)] s0) (fun t => (t.v 3, t.v 0xF)) = some (0x02, 0x00) := by decide

-- A12e
theorem test_shr_flag_first : after 0x8F06 (regs [(0xF, 0x03)] s0) (fun t => t.v 0xF) = some 0x00 := by decide

-- A13b
theorem test_subnReg : after 0x8127 (regs [(1, 0x01), (2, 0x00)] s0) (fun t => (t.v 1, t.v 0xF, t.pc)) = some (0xFF, 0, 0x202) := by decide

-- A15
theorem test_subnReg_flag_first : after 0x81F7 (regs [(1, 0x03), (0xF, 0x05)] s0) (fun t => (t.v 0xF, t.v 1)) = some (0x01, 0xFE) := by decide

-- A16
theorem test_shl : after 0x830E (regs [(3, 0x81)] s0) (fun t => (t.v 3, t.v 0xF)) = some (0x02, 0x01) := by decide

-- A16e
theorem test_shl_flag_first : after 0x8F0E (regs [(0xF, 0x80)] s0) (fun t => t.v 0xF) = some 0x02 := by decide

-- A18b, A18c
theorem test_vf_refused : refusal? (runWord 0x81F5 (refusingVF s0)) = some .vfOperand ∧
    after 0x8F20 (refusingVF (regs [(2, 3)] s0)) (fun t => t.v 0xF) = some 3 := by decide


/-! ### Graphics -/

-- G1
theorem test_drw : after 0xD011 (place 0x300 [0x80] (regs [(0, 5), (1, 7)] (s0.setI 0x300)))
    (fun t => (t.pixel 5 7, t.pixel 6 7, t.pixel 5 8, t.v 0xF, t.drawFlag, t.pc)) = some (true, false, false, 0, true, 0x202) := by decide

-- G3, with the last cell 1 before: R141
theorem test_drw_wraps_and_collides : after 0xD011 ((place 0x300 [0xFF] (regs [(0, 62)] (s0.setI 0x300))).setPixel 5 0 true)
    (fun t => (t.pixel 61 0, t.pixel 62 0, t.pixel 0 0, t.pixel 4 0, t.pixel 5 0, t.v 0xF)) =
    some (false, true, true, true, false, 1) := by decide


/-! ### Keys, timers, the index register and the memory block -/

-- K1, K1b
theorem test_skp : after 0xE59E (press 10 (regs [(5, 0x0A)] s0)) State.pc = some 0x204 ∧ after 0xE59E (regs [(5, 0x0A)] s0) State.pc = some 0x202 := by decide

-- K3
theorem test_skp_index : fault? (runWord 0xE59E (regs [(5, 0x10)] s0)) = some (.keyIndexOutOfRange 16) := by decide

-- K2, K2b
theorem test_sknp : after 0xE5A1 (press 10 (regs [(5, 0x0A)] s0)) State.pc = some 0x202 ∧ after 0xE5A1 (regs [(5, 0x0A)] s0) State.pc = some 0x204 := by decide

-- K3b
theorem test_sknp_index : fault? (runWord 0xE5A1 (regs [(5, 0xFF)] s0)) = some (.keyIndexOutOfRange 255) := by decide

-- T1
theorem test_ldVxDT : after 0xF307 (s0.setDT 0x3C) (fun t => (t.v 3, t.DT, t.pc)) = some (0x3C, 0x3C, 0x202) := by decide

-- T2
theorem test_ldDTVx : after 0xF315 (regs [(3, 0x3C)] s0) (fun t => (t.DT, t.ST, t.pc)) = some (0x3C, 0, 0x202) := by decide

-- T3
theorem test_ldSTVx : after 0xF318 (regs [(3, 1)] s0) (fun t => (t.ST, t.DT, t.pc)) = some (1, 0, 0x202) := by decide

-- T4
theorem test_ldVxK_waits : after 0xF20A s0 (fun t => (t.pc, t.v 2)) = some (0x200, 0) ∧ cycle (s0.withFetchWord 16 0xF20A) = .waiting := by decide

-- T4b
theorem test_ldVxK_lowest : after 0xF20A (press 9 (press 7 s0)) (fun t => (t.v 2, t.pc)) = some (7, 0x202) := by decide

-- X1d
theorem test_addIVx : after 0xF11E (regs [(1, 1)] (s0.setI 0xFFFF)) (fun t => (t.I, t.v 0xF)) = some (0, 1) := by decide

-- X1b
theorem test_addIVx_bound : after 0xF11E (regs [(1, 0)] (s0.setI 0xFFF)) (fun t => (t.I, t.v 0xF)) = some (0xFFF, 0) := by decide

-- X2b, X2, X2c: V[4] and not the number 4 (log 32)
theorem test_ldFVx : after 0xF429 (regs [(4, 0xFF)] s0) (fun t => (t.I, t.pc)) = some (0x4FB, 0x202) ∧
    after 0xF429 (regs [(4, 0x0A)] s0) State.I = some 0x032 ∧ after 0xF429 (s0.setI 0x300) State.I = some 0 := by decide

-- B1
theorem test_ldBVx : after 0xF033 (regs [(0, 0xFE)] (s0.setI 0x300)) (fun t => (t.memRead 0x300, t.memRead 0x301, t.memRead 0x302, t.I)) =
    some (2, 5, 4, 0x300) := by decide

-- B1f
theorem test_ldBVx_bound : fault? (runWord 0xF033 (s0.setI 0xFFE)) = some (.memoryOutOfRange 0x1000) := by decide

-- M1, with V[3] = 04 to show that it is not stored
theorem test_ldMemVx : after 0xF255 (regs [(0, 1), (1, 2), (2, 3), (3, 4)] (s0.setI 0x300))
    (fun t => (t.memRead 0x300, t.memRead 0x302, t.memRead 0x303, t.I)) = some (1, 3, 0, 0x303) := by decide

-- M1c, M1e
theorem test_ldMemVx_bound : fault? (runWord 0xF155 (s0.setI 0xFFF)) = some (.memoryOutOfRange 0x1000) ∧
    fault? (runWord 0xF055 (s0.setI 0xFFFF)) = some (.memoryOutOfRange 0xFFFF) := by decide

-- M2, with mem[303] = 09 to show that it is not loaded
theorem test_ldVxMem : after 0xF265 (place 0x300 [2, 5, 4, 9] (s0.setI 0x300)) (fun t => (t.v 0, t.v 1, t.v 2, t.v 3, t.I)) =
    some (2, 5, 4, 0, 0x303) := by decide

-- M2c
theorem test_ldVxMem_bound : fault? (runWord 0xF065 (s0.setI 0x1000)) = some (.memoryOutOfRange 0x1000) := by decide


/-! ### Immediate, index and random -/

-- I1
theorem test_ldImm : after 0x6A42 s0 (fun t => (t.v 0xA, t.pc)) = some (0x42, 0x202) := by decide

-- I2b
theorem test_addImm : after 0x7001 (regs [(0, 0xFF)] s0) (fun t => (t.v 0, t.v 0xF, t.pc)) = some (0, 0, 0x202) := by decide

-- I3b
theorem test_ldI : after 0xAFFF (s0.setI 0xF123) (fun t => (t.I, t.pc)) = some (0x0FFF, 0x202) := by decide

-- I4, I4c: the draw stands in the step as an argument of `rndWith`
theorem test_rnd : (rndWith 0xB7 3 0x0F s0).v 3 = 7 ∧ (rndWith 0x5A 3 0xFF s0).v 3 = 0x5A ∧ (rndWith 0x5A 3 0xFF s0).pc = 0x202 := by decide


/-! ### Fetch, errors, tick, reset -/

-- F1, F2, F3
theorem test_fetch_bound : after 0x1200 (s0.setPc 0xFFE) State.pc = some 0x200 ∧ fault? (step (s0.setPc 0xFFF)) = some (.memoryOutOfRange 0x1000) ∧
    fault? (step (s0.setPc 0x10FE)) = some (.memoryOutOfRange 0x10FE) := by decide

-- A17, I5
theorem test_unknown : fault? (runWord 0x8128 s0) = some (.unknownOpcode 0x8128 0x200) ∧
    fault? (runWord 0x7006 (refusingOps s0)) = some (.unknownOpcode 0x7006 0x200) := by decide

-- RS1
theorem test_reset_step : fault? (step s0) = some (.unknownOpcode 0x0000 0x200) := by decide

-- TK3, TK5, TK2, TK1
theorem test_tick : (s0.setST 1).tone = true ∧ (s0.setST 1).countTimers.ST = 0 ∧ (s0.setST 2).tone = false ∧ s0.tone = false ∧
    (s0.setDT 2).countTimers.DT = 1 ∧ s0.countTimers = s0 := by decide

set_option maxRecDepth 4000 in
-- RS2, RS1
theorem test_reset_image : (resetImage (some [0x12, 0x0E]) (unloaded s0)).1.memRead 0x201 = 0x0E ∧
    (resetImage (some [0x12, 0x0E]) (unloaded s0)).1.loaded = true ∧ (resetImage (some []) s0).1.memRead 3 = 0x90 := by decide

-- RS5, R243
theorem test_reset_unreadable : (resetImage none s0).2 = some (.programLoadError .unreadable) ∧
    refusal? (step (resetImage none s0).1) = some .notLoaded := by decide

-- H1; R233: skip is not available at any other time
theorem test_skip : (perform .step ⟨s0, none⟩).map Prod.snd = some (.error (.unknownOpcode 0x0000 0x200)) ∧
    ((perform .step ⟨s0, none⟩).bind fun p => perform .skip p.1).map (fun p => p.1.core.pc) = some 0x202 ∧
    perform .skip ⟨s0, none⟩ = none := by decide


/-! ### Witnesses: for each statement with hypotheses, states and operands that meet them, clause by clause -/

theorem witness_DecodeOfEncodeIsTheInstruction : Instr.WellFormed (.drw 0xF 0 15) ∧ Instr.WellFormed (.jp 0xFFF) ∧ Instr.WellFormed .cls := by decide

theorem witness_EncodeOfDecodeIsTheWord : decodeWord 0xDAB7 = some (.drw 0xA 0xB 7) := by decide

theorem witness_StepRunsDecodedInstruction : (place 0xFFE [0x6A, 0x42] (s0.setPc 0xFFE)).loaded = true ∧ (s0.setPc 0xFFE).pc.toNat ≤ 0xFFE ∧
    decode [(place 0xFFE [0x6A, 0x42] s0).memRead 0xFFE, (place 0xFFE [0x6A, 0x42] s0).memRead 0xFFF] = .ok (.ldImm 0xA 0x42, []) ∧
    s0.params.unlistedOps.admits (.ldImm 0xA 0x42) = true := by decide

theorem witness_UnknownWordRaises : (s0.loaded = true ∧ s0.fetch = .ok 0x0000 ∧ dispatch s0.params.unlistedOps 0x0000 = none) ∧
    (opFamily 0x8128 = 0x8 ∧ opN 0x8128 ∈ [8, 9, 0xA, 0xB, 0xC, 0xD, 0xF]) ∧
    (opFamily 0xE59F = 0xE ∧ opNN 0xE59F ≠ 0x9E ∧ opNN 0xE59F ≠ 0xA1) ∧
    (opFamily 0xF0FF = 0xF ∧ opNN 0xF0FF ∉ ([0x07, 0x0A, 0x15, 0x18, 0x1E, 0x29, 0x33, 0x55, 0x65] : List Byte)) := by decide

theorem witness_Encodes : (oneOfEach.all fun i => encode i &&& i.row.mask == i.row.value) = true := by decide

theorem witness_SkipOnRegister : (opFamily 0x5121 = 0x5 ∧ opN 0x5121 ≠ 0) ∧ (opFamily 0x912E = 0x9 ∧ opN 0x912E ≠ 0) := by decide

theorem witness_UnlistedFamiliesRaise : (refusingOps (place 0x200 [0xC3, 0x0F] s0)).params.unlistedOps = .refuse ∧
    (refusingOps (place 0x200 [0xC3, 0x0F] s0)).loaded = true ∧
    (refusingOps (place 0x200 [0xC3, 0x0F] s0)).fetch = .ok 0xC30F ∧ opFamily 0xC30F = 0xC ∧
    opFamily 0x6105 ≠ 0x7 ∧ opFamily 0x6105 ≠ 0xA ∧ opFamily 0x6105 ≠ 0xC := by decide

theorem witness_FetchOutOfRangeRaises : s0.loaded = true ∧ (s0.setPc 0xFFF).pc.toNat > 0xFFE ∧ (s0.setPc 0xFFFF).pc.toNat > 0xFFE := by decide

theorem witness_NothingRunsUnlessLoaded : (unloaded s0).loaded = false := by decide

theorem witness_HaltedStateStepsToItself : (s0.withFetchWord 16 0x1200).loaded = true ∧ (s0.withFetchWord 16 0x1200).halted = true := by decide

theorem witness_CycleOutcomesAreThoseOfTheStep : cycle (s0.withFetchWord 16 0xF20A) = .waiting ∧ cycle (unloaded s0) = .refused .notLoaded ∧
    cycle s0 = .error (.unknownOpcode 0 0x200) ∧
    cycle (s0.withFetchWord 16 0x1200) = .ok (s0.withFetchWord 16 0x1200) := by decide

theorem witness_RefusedInTwoCasesOnly : refusal? (step (unloaded s0)) = some .notLoaded ∧ refusal? (runWord 0x8F14 (refusingVF s0)) = some .vfOperand ∧
    refusal? (runWord 0x8F0E (refusingVF s0)) = some .vfOperand := by decide

theorem witness_StepErrorsAreOfTheirInstruction : fault? (step s0) = some (.unknownOpcode 0 0x200) ∧ fault? (runWord 0x2300 (stacked 16 0 s0)) = some .stackOverflow ∧
    fault? (runWord 0x00EE s0) = some .stackUnderflow ∧ fault? (step (s0.setPc 0xFFFF)) = some (.memoryOutOfRange 0xFFFF) ∧
    fault? (runWord 0xD01F (s0.setI 0xFF2)) = some (.memoryOutOfRange 0x1000) ∧
    fault? (runWord 0xE09E (regs [(0, 16)] s0)) = some (.keyIndexOutOfRange 16) := by decide

theorem witness_ErrorIsRepeated : fault? (step s0) = some (.unknownOpcode 0 0x200) := by decide

theorem witness_OnlyRandomReadsTheDraw : ∀ x nn, Instr.drw 0 1 5 ≠ .rnd x nn := by simp

theorem witness_ReturnFromSubroutine : (stacked 1 0x200 s0).sp.val = (0 : Fin 16).val + 1 ∧ (stacked 16 0xFFE s0).sp.val = (15 : Fin 16).val + 1 ∧
    ((stacked 16 0xFFE s0).stackEntry 15).toNat + 2 < 2 ^ 16 ∧ s0.sp = 0 := by decide

theorem witness_CallSubroutine : s0.sp.val = (0 : Fin 16).val ∧ (stacked 15 0 s0).sp.val = (15 : Fin 16).val ∧ (stacked 16 0 s0).sp = 16 := by decide

theorem witness_JumpPlusV0 : (0xFFF : Word).toNat ≤ 0xFFF ∧ (0 : Word).toNat ≤ 0xFFF := by decide

theorem witness_CallThenReturn : (s0.setPc 0xFFE).pc.toNat ≤ 0xFFE ∧ (nextState? (exec (.call 0x300) (stacked 15 0 (s0.setPc 0xFFE)))).isSome = true := by decide

theorem witness_AddRegisters : PolicyRuns s0 [0xF, 1] ∧ PolicyRuns (refusingVF s0) [1, 2] := by
  unfold PolicyRuns; decide

theorem witness_SubtractRegisters : PolicyRuns s0 [0xF, 1] ∧ (1 : Byte) = (if (s0.v 0xF).toNat ≥ (s0.v 1).toNat then 1 else 0) ∧
    (1 : Byte) = (if (0xF : Reg) = 0xF then 1 else s0.v 0xF) ∧ (0 : Byte) = (if (1 : Reg) = 0xF then 1 else s0.v 1) := by
  unfold PolicyRuns; decide

theorem witness_SubtractReversed : PolicyRuns s0 [1, 0xF] ∧
    (0 : Byte) = (if (s0.v 0xF).toNat ≥ ((regs [(1, 3)] s0).v 1).toNat then 1 else 0) ∧
    (3 : Byte) = (if (1 : Reg) = 0xF then 0 else (regs [(1, 3)] s0).v 1) ∧
    (0 : Byte) = (if (0xF : Reg) = 0xF then 0 else s0.v 0xF) := by
  unfold PolicyRuns; decide

theorem witness_ShiftByOne : PolicyRuns s0 [0xF] ∧ PolicyRuns (refusingVF s0) [1] := by unfold PolicyRuns; decide

theorem witness_VfOperandsRefused : ((refusingVF s0).params.vfOperandPolicy = .refuse ∧ ((1 : Reg) = 0xF ∨ (0xF : Reg) = 0xF)) ∧
    refusal? (exec (.shl 0xF 1) (refusingVF s0)) = some .vfOperand ∧
    (nextState? (exec (.shl 1 0xF) (refusingVF s0))).isSome = true ∧
    s0.params.vfOperandPolicy = .sequential ∧ ((0xE : Reg) ≠ 0xF ∧ (0 : Reg) ≠ 0xF) := by decide

theorem witness_DrawSprite : (0 ≤ 15 ∧ (0 = 0 ∨ (s0.setI 0xFFFF).I.toNat + 0 ≤ 0x1000)) ∧ (15 ≤ 15 ∧ (s0.setI 0xFF1).I.toNat + 15 ≤ 0x1000) ∧
    (1 ≤ 15 ∧ (s0.setI 0xFFF).I.toNat + 1 ≤ 0x1000) := by decide

theorem witness_DrawOutOfRangeRaises : 0 < 15 ∧ (s0.setI 0xFF2).I.toNat + 15 > 0x1000 ∧ 0 < 1 ∧ (s0.setI 0x1000).I.toNat + 1 > 0x1000 := by decide

/-- The sprite of G1: one set bit, drawn twice at (5, 7). -/
def drawn : State := place 0x300 [0x80] (regs [(0, 5), (1, 7)] (s0.setI 0x300))

theorem witness_DrawTwiceRestores_draws : (nextState? (exec (.drw 0 1 1) drawn)).map (fun t => (t.v 0, t.v 1)) = some (5, 7) ∧
    ((nextState? (exec (.drw 0 1 1) drawn)).bind fun t => nextState? (exec (.drw 0 1 1) t)).isSome = true := by decide

theorem witness_SpriteCovers : SpriteCovers drawn 0 1 1 5 7 := ⟨0, by decide, 0, by decide, by decide, by decide, by decide⟩

theorem witness_DrawTwiceRestores_screen (c : Col) (q : Row) : drawn.pixel c q = false := by
  revert q
  revert c
  decide

/-- The same sprite over a screen that is all set: every cell it covers was set before the first draw. -/
def drawnOverSet : State := { drawn with fb := Vector.replicate 64 (Vector.replicate 32 true) }

theorem witness_DrawTwiceRestores_set (c : Col) (q : Row) : drawnOverSet.pixel c q = true := by
  revert q
  revert c
  decide

theorem witness_DrawTwiceRestores_flags :
    ((nextState? (exec (.drw 0 1 1) drawn)).bind fun t => (nextState? (exec (.drw 0 1 1) t)).map fun u => (t.v 0xF, u.v 0xF)) =
      some (0, 1) ∧
    ((nextState? (exec (.drw 0 1 1) drawnOverSet)).bind fun t =>
      (nextState? (exec (.drw 0 1 1) t)).map fun u => (t.v 0xF, u.v 0xF)) = some (1, 0) := by decide

theorem witness_SkipOnKey : ((regs [(5, 0)] s0).v 5).toNat = (0 : Key).val ∧ ((regs [(5, 15)] s0).v 5).toNat = (15 : Key).val := by decide

theorem witness_KeyIndexAbove15Raises : 15 < ((regs [(5, 16)] s0).v 5).toNat := by decide

theorem witness_KeyWaitEnds : (press 9 (press 7 s0)).key 7 = true ∧ ∀ j, j < (7 : Key) → (press 9 (press 7 s0)).key j = false := by decide

theorem witness_KeyWaitWaits : ∀ k, s0.key k = false := by decide

theorem witness_StoreDecimalDigits : (s0.setI 0xFFD).I.toNat + 2 ≤ 0xFFF ∧ (s0.setI 0xFFE).I.toNat + 2 > 0xFFF := by decide

theorem witness_StoreRegisters : (s0.setI 0xFF0).I.toNat + (0xF : Reg).val ≤ 0xFFF ∧ (s0.setI 0xFF1).I.toNat + (0xF : Reg).val > 0xFFF ∧
    (s0.setI 0xFFF).I.toNat + (0 : Reg).val ≤ 0xFFF ∧ (s0.setI 0x1000).I.toNat + (0 : Reg).val > 0xFFF := by decide

theorem witness_LoadRegisters : (s0.setI 0xFF0).I.toNat + (0xF : Reg).val ≤ 0xFFF ∧ (s0.setI 0xFF1).I.toNat + (0xF : Reg).val > 0xFFF ∧
    (s0.setI 0xFFF).I.toNat + (0 : Reg).val ≤ 0xFFF ∧ (s0.setI 0x1000).I.toNat + (0 : Reg).val > 0xFFF := by decide

theorem witness_StoreLoadRoundTrip : ((nextState? (exec (.ldMemVx 2) (s0.setI 0x300))).bind fun t =>
    nextState? (exec (.ldVxMem 2) { t with I := (s0.setI 0x300).I, V := Vector.replicate 16 0 })).isSome = true := by decide

theorem witness_FetchSeesStores : (nextState? (exec (.ldMemVx 1) (s0.setI 0xFFE))).isSome = true ∧ (1 : Reg).val = (0 : Reg).val + 1 ∧ (1 : Reg) ≤ 1 ∧
    (0xFFE : Word).toNat = (s0.setI 0xFFE).blockAddress (0 : Reg).val := by decide

theorem witness_HostStateLeftAlone : (nextState? (exec (.ldMemVx 1) s0)).isSome = true := by decide

theorem witness_DisplayWriters : (nextState? (exec .ret (stacked 1 0x200 s0.raiseDrawFlag))).isSome = true ∧
    (stacked 1 0x200 s0.raiseDrawFlag).drawFlag = true ∧ (Instr.ret ≠ .cls ∧ ∀ x y n, Instr.ret ≠ .drw x y n) :=
  ⟨by decide, by decide, by simp⟩

theorem witness_MemoryIndexAndStackWriters : (nextState? (exec .cls s0)).isSome = true ∧
    (∀ x, Instr.cls ≠ .ldBVx x ∧ Instr.cls ≠ .ldMemVx x) ∧ (∀ w, Instr.cls ≠ .ldI w) ∧
    (∀ x, Instr.cls ≠ .addIVx x ∧ Instr.cls ≠ .ldFVx x ∧ Instr.cls ≠ .ldMemVx x ∧ Instr.cls ≠ .ldVxMem x) ∧
    (∀ w, Instr.cls ≠ .call w) ∧ Instr.cls ≠ .ret :=
  ⟨by decide, by simp, by simp, by simp, by simp, by simp⟩

theorem witness_TimersMoveOnlyByTheirWriters : (nextState? (runWord 0xF315 s0)).isSome = true ∧ (s0.withFetchWord 16 0xF315).nextInstr = some (.ldDTVx 3) := by decide

theorem witness_TickCountsDown : s0.loaded = true ∧ (s0.setST 1).loaded = true := by decide

theorem witness_ResetValues : s0.params = standardParams ∧ s0.draws = 0 := by decide

theorem witness_ResetLoadsImage : ([] : List Byte).length ≤ 3584 ∧ (List.replicate 3584 (1 : Byte)).length ≤ 3584 ∧
    3584 < (List.replicate 3585 (1 : Byte)).length := by
  simp only [List.length_replicate, List.length_nil]
  omega

theorem witness_SkipOnlyAfterError : (perform .step ⟨s0, none⟩).map Prod.snd = some (.error (.unknownOpcode 0 0x200)) ∧
    (perform .step ⟨s0.withFetchWord 16 0x1200, none⟩).map Prod.snd = some .ok ∧
    (perform .step ⟨s0.withFetchWord 16 0xF20A, none⟩).map Prod.snd = some .waiting ∧
    (perform .step ⟨unloaded s0, none⟩).map Prod.snd = some (.refused .notLoaded) ∧
    (perform .step ⟨s0.setPc 0xFFF, none⟩).map Prod.snd = some (.error (.memoryOutOfRange 0x1000)) ∧
    (perform .step ⟨s0.setPc 0xFFFF, none⟩).map Prod.snd = some (.error (.memoryOutOfRange 0xFFFF)) ∧
    0xFFE < (s0.setPc 0xFFD).pc.toNat + 2 ∧
    (perform .step ⟨place 0xFFD [0x81, 0x28] (s0.setPc 0xFFD), none⟩).map Prod.snd = some (.error (.unknownOpcode 0x8128 0xFFD)) := by decide

theorem witness_SkipOnlyAfterError_others : (perform (.reset none) ⟨s0, some .stackOverflow⟩).map Prod.snd = some (.error (.programLoadError .unreadable)) ∧
    (perform .tick ⟨s0, some .stackOverflow⟩).map Prod.snd = some (.tone false) ∧
    Operation.tick ≠ .step ∧ Operation.tick ≠ .skip ∧ Operation.tick ≠ .reset none := by decide

theorem witness_SkipOnlyAfterError_tick : ∀ image, Operation.tick ≠ .reset image := by simp

-- R233: past 0xFFE
theorem test_skip_past_memory : (pcPastMemory 0).toNat = 0xFFF ∧ (pcPastMemory 0xF000).toNat = 0xFFFF ∧ (s0.setPc 0xFFD).skipFaulting.pc = 0xFFF := by decide

/-- Reset meets the invariant that a step keeps, and a step from there on answers a next state once a program is placed. -/
theorem witness_StepKeepsInvariant : State.Inv (s0.withFetchWord 16 0x1200) ∧ (nextState? (runWord 0x1200 s0)).isSome = true :=
  ⟨⟨by unfold MemCanonical; decide, by unfold ReturnsFetchable; decide, by unfold PcReachable; decide⟩, by decide⟩

theorem witness_OperationsKeepSessionInvariant : Session.Inv ⟨s0, none⟩ ∧ (perform (.setKey 3 true) ⟨s0, none⟩).isSome = true :=
  ⟨⟨by unfold MemCanonical; decide, by unfold ReturnsFetchable; decide, by simp⟩, by decide⟩

theorem witness_OperationsKeepSessionInvariant_error :
    Session.Inv ⟨s0, some (.unknownOpcode 0 0x200)⟩ ∧ (perform .skip ⟨s0, some (.unknownOpcode 0 0x200)⟩).isSome = true :=
  ⟨⟨by unfold MemCanonical; decide, by unfold ReturnsFetchable; decide, by rintro c h; cases h; rfl⟩, by decide⟩

end Sys2Proof.Tests
end

section
/-! PROOFS. The family of 20_memory.md: the fetched word and the step that runs it. -/

namespace Sys2Proof

/-- The first byte is bits 15 to 8 of the word (R50). -/
theorem wordOfBytes_toNat (hi lo : Byte) : (wordOfBytes hi lo).toNat = hi.toNat * 256 + lo.toNat :=
  append_toNat hi lo

end Sys2Proof

namespace Sys2Proof.Machine

/-- The instruction that the two bytes at pc decode to is the next one, when the setting of `UNLISTED_OPS` admits it
(R90, R91). -/
theorem State.nextInstr_of_decode {s : State} {i : Instr} {rest : List Byte} (hp : s.pc.toNat ≤ 0xFFE)
    (hd : decode [s.memRead s.pc.toNat, s.memRead (s.pc.toNat + 1)] = .ok (i, rest))
    (ha : s.params.unlistedOps.admits i = true) : s.nextInstr = some i := by
  obtain ⟨hi, lo, hbytes, hword⟩ := decode_eq_ok.mp hd
  simp only [List.cons.injEq] at hbytes
  obtain ⟨rfl, rfl, -⟩ := hbytes
  exact State.nextInstr_eq_some.mpr ⟨_, State.fetch_eq_ok.mpr ⟨hp, rfl⟩, dispatch_eq_some.mpr ⟨hword, ha⟩⟩

/-- Settles O6: the fetched word is that of the two bytes at pc, and the instruction they decode to is the one the step runs. -/
theorem stepRunsDecodedInstruction : Obligations.StepRunsDecodedInstruction := by
  unfold Obligations.StepRunsDecodedInstruction
  constructor
  · intro s hp
    exact ⟨_, State.fetch_eq_ok.mpr ⟨hp, rfl⟩, wordOfBytes_toNat _ _⟩
  · intro s i hl hp hd ha
    exact step_of_nextInstr hl (State.nextInstr_of_decode hp hd ha)

end Sys2Proof.Machine
end

section
/-! PROOFS. The family of 40_cycle.md: the decoder and the rows of the opcode table. -/

namespace Sys2Proof

open Machine

/-! ### A decoded instruction encodes to its word, and so has the fixed bits of its row -/

theorem encode_of_decodeFamily0 {op : Word} {i : Instr} (h : decodeFamily0 op = some i) : encode i = op := by
  unfold decodeFamily0 at h
  split_ifs at h with h1 h2 <;> cases h
  · exact h1.symm
  · exact h2.symm

theorem encode_of_decodeFamily5 {op : Word} {i : Instr} (hf : (opFamily op).toNat = 0x5)
    (h : decodeFamily5 op = some i) : encode i = op := by
  unfold decodeFamily5 at h
  split at h <;> cases h
  exact encodeXYN_fields hf ‹_›

theorem encode_of_decodeFamily8 {op : Word} {i : Instr} (hf : (opFamily op).toNat = 0x8)
    (h : decodeFamily8 op = some i) : encode i = op := by
  unfold decodeFamily8 at h
  split at h <;> cases h <;> exact encodeXYN_fields hf ‹_›

theorem encode_of_decodeFamily9 {op : Word} {i : Instr} (hf : (opFamily op).toNat = 0x9)
    (h : decodeFamily9 op = some i) : encode i = op := by
  unfold decodeFamily9 at h
  split at h <;> cases h
  exact encodeXYN_fields hf ‹_›

theorem encode_of_decodeFamilyE {op : Word} {i : Instr} (hf : (opFamily op).toNat = 0xE)
    (h : decodeFamilyE op = some i) : encode i = op := by
  unfold decodeFamilyE at h
  split at h <;> cases h <;> exact encodeXNN_fields hf ‹_›

theorem encode_of_decodeFamilyF {op : Word} {i : Instr} (hf : (opFamily op).toNat = 0xF)
    (h : decodeFamilyF op = some i) : encode i = op := by
  unfold decodeFamilyF at h
  split at h <;> cases h <;> exact encodeXNN_fields hf ‹_›

theorem encode_of_decodeWord {op : Word} {i : Instr} (h : decodeWord op = some i) : encode i = op := by
  unfold decodeWord at h
  split at h
  case h_1 => exact encode_of_decodeFamily0 h
  case h_6 hf => exact encode_of_decodeFamily5 hf h
  case h_9 hf => exact encode_of_decodeFamily8 hf h
  case h_10 hf => exact encode_of_decodeFamily9 hf h
  case h_15 hf => exact encode_of_decodeFamilyE hf h
  case h_16 hf => exact encode_of_decodeFamilyF hf h
  case h_14 hf => cases h; exact encodeXYN_fields hf (by simp [opN])
  case h_2 hf | h_3 hf | h_11 hf | h_12 hf => cases h; exact encodeNNN_fields hf
  case h_4 hf | h_5 hf | h_7 hf | h_8 hf | h_13 hf => cases h; exact encodeXNN_fields hf rfl
  case h_17 => cases h

/-! ### A word with the fixed bits of a row decodes to the instruction of that row -/

/-- The instruction of the same row that has the fields of the word `op` as its operands (R71, R74). -/
def Instr.withFieldsOf (i : Instr) (op : Word) : Instr :=
  match i with
  | .cls => .cls
  | .ret => .ret
  | .jp _ => .jp (opNNN op)
  | .call _ => .call (opNNN op)
  | .seImm _ _ => .seImm (opX op) (opNN op)
  | .sneImm _ _ => .sneImm (opX op) (opNN op)
  | .seReg _ _ => .seReg (opX op) (opY op)
  | .ldImm _ _ => .ldImm (opX op) (opNN op)
  | .addImm _ _ => .addImm (opX op) (opNN op)
  | .ldReg _ _ => .ldReg (opX op) (opY op)
  | .orReg _ _ => .orReg (opX op) (opY op)
  | .andReg _ _ => .andReg (opX op) (opY op)
  | .xorReg _ _ => .xorReg (opX op) (opY op)
  | .addReg _ _ => .addReg (opX op) (opY op)
  | .subReg _ _ => .subReg (opX op) (opY op)
  | .shr _ _ => .shr (opX op) (opY op)
  | .subnReg _ _ => .subnReg (opX op) (opY op)
  | .shl _ _ => .shl (opX op) (opY op)
  | .sneReg _ _ => .sneReg (opX op) (opY op)
  | .ldI _ => .ldI (opNNN op)
  | .jpV0 _ => .jpV0 (opNNN op)
  | .rnd _ _ => .rnd (opX op) (opNN op)
  | .drw _ _ _ => .drw (opX op) (opY op) (opN op)
  | .skp _ => .skp (opX op)
  | .sknp _ => .sknp (opX op)
  | .ldVxDT _ => .ldVxDT (opX op)
  | .ldVxK _ => .ldVxK (opX op)
  | .ldDTVx _ => .ldDTVx (opX op)
  | .ldSTVx _ => .ldSTVx (opX op)
  | .addIVx _ => .addIVx (opX op)
  | .ldFVx _ => .ldFVx (opX op)
  | .ldBVx _ => .ldBVx (opX op)
  | .ldMemVx _ => .ldMemVx (opX op)
  | .ldVxMem _ => .ldVxMem (opX op)

@[simp] theorem Instr.row_withFieldsOf (i : Instr) (op : Word) : (i.withFieldsOf op).row = i.row := by
  cases i <;> rfl

theorem opFamily_eq_of_mask {op w : Word} (h : op &&& 0xF000 = w &&& 0xF000) :
    (opFamily op).toNat = (opFamily w).toNat := by
  have hw : w &&& 0xF000 = encodeNNN (opFamily w) 0 := by rw [← encodeNNN_mask _ (opNNN w), encodeNNN_fields rfl]
  exact opFamily_of_mask (h.trans hw)

theorem fields_eq_of_nibble_mask {op w : Word} (h : op &&& 0xF00F = w &&& 0xF00F) :
    (opFamily op).toNat = (opFamily w).toNat ∧ opN op = opN w := by
  have hn : opN w = (BitVec.ofNat 4 (opN w)).toNat := by simp [opN]
  have hw : w &&& 0xF00F = encodeXYN (opFamily w) 0 0 (BitVec.ofNat 4 (opN w)) := by
    rw [← encodeXYN_mask_function _ (opX w) (opY w), encodeXYN_fields rfl hn]
  rw [hn]
  exact fields_of_mask_nibble (h.trans hw)

theorem fields_eq_of_function_mask {op w : Word} (h : op &&& 0xF0FF = w &&& 0xF0FF) :
    (opFamily op).toNat = (opFamily w).toNat ∧ (opNN op).toNat = (opNN w).toNat := by
  have hw : w &&& 0xF0FF = encodeXNN (opFamily w) 0 (opNN w) := by
    rw [← encodeXNN_mask_function _ (opX w), encodeXNN_fields rfl rfl]
  exact fields_of_mask_function (h.trans hw)

/-- The fixed bits of an instruction's word are those of its row, by the mask of the row. -/
theorem encode_and_mask (i : Instr) : encode i &&& i.row.mask = i.row.value := by
  cases i
  case cls | ret => decide
  case jp | call | ldI | jpV0 => exact encodeNNN_mask _ _
  case seImm | sneImm | ldImm | addImm | rnd => exact encodeXNN_mask_family _ _ _
  case drw => exact encodeXYN_mask_family _ _ _ _
  case seReg | ldReg | orReg | andReg | xorReg | addReg | subReg | shr | subnReg | shl | sneReg =>
    exact encodeXYN_mask_function _ _ _ _
  case skp | sknp | ldVxDT | ldVxK | ldDTVx | ldSTVx | addIVx | ldFVx | ldBVx | ldMemVx | ldVxMem =>
    exact encodeXNN_mask_function _ _ _

/-- The fixed bits fix the family and the function nibble or byte, and these are all that the decoder dispatches on (R75). -/
theorem Instr.encodes_row (i : Instr) : Encodes i.row.mask i.row.value i.withFieldsOf := by
  intro op h
  rw [← encode_and_mask] at h
  cases i
  case cls | ret =>
    have hop : op &&& 0xFFFF = op := BitVec.and_allOnes
    obtain rfl := hop.symm.trans h
    rfl
  case jp | call | ldI | jpV0 => rw [decodeWord, opFamily_eq_of_mask h, encode, opFamily_encodeNNN]; rfl
  case seImm | sneImm | ldImm | addImm | rnd => rw [decodeWord, opFamily_eq_of_mask h, encode, opFamily_encodeXNN]; rfl
  case drw => rw [decodeWord, opFamily_eq_of_mask h, encode, opFamily_encodeXYN]; rfl
  case seReg | ldReg | orReg | andReg | xorReg | addReg | subReg | shr | subnReg | shl | sneReg =>
    obtain ⟨hf, hn⟩ := fields_eq_of_nibble_mask h
    rw [encode, opFamily_encodeXYN] at hf
    rw [encode, opN_encodeXYN] at hn
    simp [decodeWord, decodeFamily5, decodeFamily8, decodeFamily9, hf, hn, withFieldsOf]
  case skp | sknp | ldVxDT | ldVxK | ldDTVx | ldSTVx | addIVx | ldFVx | ldBVx | ldMemVx | ldVxMem =>
    obtain ⟨hf, hn⟩ := fields_eq_of_function_mask h
    rw [encode, opFamily_encodeXNN] at hf
    rw [encode, opNN_encodeXNN] at hn
    simp [decodeWord, decodeFamilyE, decodeFamilyF, hf, hn, withFieldsOf]

/-! ### The rows a word matches (R91) -/

theorem Instr.row_mem_opcodeTable (i : Instr) : i.row ∈ opcodeTable := by
  cases i <;> simp [opcodeTable, oneOfEach, Instr.row]

theorem opcodeTable_nodup : opcodeTable.Nodup := by decide

/-- A word matches a row of the table exactly when its instruction is of that row (R91). -/
theorem matchesWord_iff {op : Word} {row : OpcodeRow} (hrow : row ∈ opcodeTable) :
    row.matchesWord op = true ↔ (decodeWord op).map Instr.row = some row := by
  rw [OpcodeRow.matchesWord, beq_iff_eq]
  constructor
  · intro h
    obtain ⟨i, -, rfl⟩ := List.mem_map.mp hrow
    rw [i.encodes_row op h, Option.map_some, i.row_withFieldsOf]
  · intro h
    obtain ⟨i, hi, rfl⟩ := Option.map_eq_some_iff.mp h
    rw [← encode_of_decodeWord hi, encode_and_mask]

/-- The rows a word matches: that of its instruction, and no other. -/
theorem filter_matchesWord (op : Word) :
    opcodeTable.filter (fun row => row.matchesWord op) = ((decodeWord op).map Instr.row).toList := by
  cases hd : decodeWord op with
  | none =>
    rw [Option.map_none, Option.toList_none, List.filter_eq_nil_iff]
    intro row hrow
    rw [matchesWord_iff hrow, hd]
    simp
  | some i =>
    have heq : ∀ row ∈ opcodeTable, row.matchesWord op = (row == i.row) := fun row hrow => by
      rw [Bool.eq_iff_iff, matchesWord_iff hrow, hd, Option.map_some, Option.some_inj, beq_iff_eq, eq_comm]
    rw [List.filter_congr heq, List.filter_beq, List.count_eq_one_of_mem opcodeTable_nodup i.row_mem_opcodeTable]
    rfl

/-- Settles O4: the rows a word matches are those of the instruction it decodes to, so they are at most one and the first of them
is its row. -/
theorem decoderAgreesWithOpcodeTable : Obligations.DecoderAgreesWithOpcodeTable := by
  unfold Obligations.DecoderAgreesWithOpcodeTable
  intro op
  rw [← List.head?_filter, filter_matchesWord]
  cases decodeWord op <;> simp

end Sys2Proof
end

section
/-! PROOFS. The family of 41_control_flow.md: the screen, jumps, calls and returns, and skips. -/

namespace Sys2Proof

/-- Families 5 and 9 have no instruction with a low nibble other than 0 (R75; C3). -/
theorem decodeWord_eq_none_of_opN_ne_zero {op : Word} (hf : opFamily op = 0x5 ∨ opFamily op = 0x9) (hn : opN op ≠ 0) :
    decodeWord op = none := by
  rcases hf with hf | hf
  · simp [decodeWord, hf, decodeFamily5, hn]
  · simp [decodeWord, hf, decodeFamily9, hn]

end Sys2Proof

namespace Sys2Proof.Machine

/-! ### Frames: one after another, and the frame of each update of this family -/

theorem Component.Same.trans {s t u : State} {c : Component} (hst : c.Same s t) (htu : c.Same t u) : c.Same s u := by
  cases c <;> exact Eq.trans htu hst

/-- Two transitions one after the other change what the one or the other may change. -/
theorem ChangesOnly.trans {p q : Component → Prop} {s t u : State} (hst : ChangesOnly p s t) (htu : ChangesOnly q t u) :
    ChangesOnly (fun c => p c ∨ q c) s u := fun c hc =>
  (hst c fun h => hc (.inl h)).trans (htu c fun h => hc (.inr h))

theorem ChangesOnly.mono {p q : Component → Prop} {s t : State} (h : ChangesOnly p s t) (hpq : ∀ c, p c → q c) :
    ChangesOnly q s t := fun c hc => h c fun hp => hc (hpq c hp)

theorem State.setPc_changesOnly (s : State) (w : Word) : ChangesOnly (· = .pc) s (s.setPc w) := by
  intro c hc
  cases c
  case pc => exact absurd rfl hc
  all_goals rfl

theorem State.raiseDrawFlag_changesOnly (s : State) : ChangesOnly (· = .drawFlag) s s.raiseDrawFlag := by
  intro c hc
  cases c
  case drawFlag => exact absurd rfl hc
  all_goals rfl

theorem State.clearFb_changesOnly (s : State) : ChangesOnly (fun k => ∃ c r, k = .pixel c r) s s.clearFb := by
  intro k hk
  cases k
  case pixel c r => exact absurd ⟨c, r, rfl⟩ hk
  all_goals rfl

/-! ### pc -/

/-- A skip on `cond` goes on by 4 or by 2 and changes pc only (R104). -/
theorem State.skipIf_spec (s : State) {cond : Bool} {p : Prop} [Decidable p] (h : cond = true ↔ p) :
    AdvancesBy (if p then 4 else 2) s (s.skipIf cond) ∧ ChangesOnly (· = .pc) s (s.skipIf cond) := by
  rw [State.skipIf_eq]
  refine ⟨?_, s.setPc_changesOnly _⟩
  by_cases hp : p
  · rw [if_pos hp, if_pos (h.mpr hp)]
    exact AdvancesBy_add rfl rfl
  · rw [if_neg hp, if_neg (mt h.mp hp)]
    exact AdvancesBy_add rfl rfl

/-! ### The stack with `k` entries below the one that is pushed or popped (R27, R28) -/

theorem State.push_spec {s : State} {k : Fin 16} (hk : s.sp.val = k.val) (w : Word) :
    ∃ t, s.push w = some t ∧ t.stackEntry k = w ∧ t.sp.val = k.val + 1 ∧
      ChangesOnly (fun c => c = .stack k ∨ c = .sp) s t := by
  have hlt : s.sp.val < 16 := hk ▸ k.isLt
  refine ⟨_, State.push_eq_some.mpr ⟨hlt, rfl⟩, ?_, congrArg (· + 1) hk, ?_⟩
  · simp [State.stackEntry, Vector.get_eq_getElem, hk]
  · intro c hc
    cases c
    case sp => exact absurd (.inr rfl) hc
    case stack j =>
      have hj : k.val ≠ j.val := fun e => hc (.inl (by rw [Fin.ext e]))
      simp [Component.Same, State.stackEntry, Vector.get_eq_getElem, hk, hj]
    all_goals rfl

theorem State.pop_spec {s : State} {k : Fin 16} (hk : s.sp.val = k.val + 1) :
    ∃ t, s.pop = some (s.stackEntry k, t) ∧ t.sp.val = k.val ∧ ChangesOnly (· = .sp) s t := by
  have hpos : 0 < s.sp.val := by omega
  have htop : s.sp.val - 1 = k.val := by omega
  refine ⟨_, State.pop_eq_some.mpr ⟨hpos, congrArg s.stackEntry (Fin.ext htop.symm), rfl⟩, htop, ?_⟩
  intro c hc
  cases c
  case sp => exact absurd rfl hc
  all_goals rfl

/-! ### What each instruction of the family answers, through the operation it rests on -/

theorem exec_ret_of_pop {s t : State} {w : Word} (h : s.pop = some (w, t)) : exec .ret s = .next (t.setPc (w + 2)) := by
  simp [exec, execRet, h]

theorem exec_ret_of_empty {s : State} (h : s.sp = 0) : exec .ret s = .fault .stackUnderflow := by
  simp [exec, execRet, State.pop_eq_none.mpr h, raise]

theorem exec_call_of_push {s t : State} (h : s.push s.pc = some t) (nnn : Word) :
    exec (.call nnn) s = .next (t.setPc nnn) := by
  simp [exec, execCall, h]

theorem exec_call_of_full {s : State} (h : s.sp = 16) (nnn : Word) : exec (.call nnn) s = .fault .stackOverflow := by
  simp [exec, execCall, State.push_eq_none.mpr h, raise]

/-- A condition leaves the state as it was (R12, R209). -/
theorem stateAfter_of_fault {o : Result} {f : Fault} (h : o = .fault f) (s : State) : stateAfter o s = s := by
  rw [h]
  rfl

/-! ### The statements -/

/-- Settles O17: clearing, raising the flag and going on, one after another. -/
theorem clearScreen : Obligations.ClearScreen := by
  unfold Obligations.ClearScreen
  refine ⟨Instr.cls.encodes_row, fun s => ⟨s.clearFb.raiseDrawFlag.advance, rfl, ?_, rfl, AdvancesBy_add rfl rfl, ?_⟩⟩
  · exact s.clearFb_at_pixel
  · have hframe := (s.clearFb_changesOnly.trans s.clearFb.raiseDrawFlag_changesOnly).trans
      (s.clearFb.raiseDrawFlag.setPc_changesOnly (s.pc + 2))
    exact hframe.mono fun k hk => by tauto

/-- Settles O18: a pop and a jump behind the popped entry, or the error of an empty stack. -/
theorem returnFromSubroutine : Obligations.ReturnFromSubroutine := by
  unfold Obligations.ReturnFromSubroutine
  refine ⟨Instr.ret.encodes_row, fun s k hk => ?_, fun s h => ?_⟩
  · obtain ⟨t, hpop, hsp, hframe⟩ := State.pop_spec hk
    refine ⟨_, exec_ret_of_pop hpop, hsp, fun hw => ?_, hframe.trans (t.setPc_changesOnly _)⟩
    rw [State.setPc_pc, BitVec.toNat_add]
    exact Nat.mod_eq_of_lt hw
  · exact ⟨exec_ret_of_empty h, stateAfter_of_fault (exec_ret_of_empty h) s⟩

/-- Settles O19: the jump is one write of pc. -/
theorem jumpToAddress : Obligations.JumpToAddress := by
  unfold Obligations.JumpToAddress
  exact ⟨(Instr.jp 0).encodes_row, fun s nnn => ⟨s.setPc nnn, rfl, rfl, s.setPc_changesOnly nnn⟩⟩

/-- Settles O20: a push of the call's own address and a jump, or the error of a full stack. -/
theorem callSubroutine : Obligations.CallSubroutine := by
  unfold Obligations.CallSubroutine
  refine ⟨(Instr.call 0).encodes_row, fun s nnn k hk => ?_, fun s nnn h => ?_⟩
  · obtain ⟨t, hpush, hentry, hsp, hframe⟩ := State.push_spec hk s.pc
    refine ⟨_, exec_call_of_push hpush nnn, hentry, hsp, rfl, ?_⟩
    exact (hframe.trans (t.setPc_changesOnly nnn)).mono fun c => or_assoc.mp
  · exact ⟨exec_call_of_full h nnn, stateAfter_of_fault (exec_call_of_full h nnn) s⟩

/-- Settles O21: both are skips on a comparison with the immediate. -/
theorem skipOnImmediate : Obligations.SkipOnImmediate := by
  unfold Obligations.SkipOnImmediate
  refine ⟨(Instr.seImm 0 0).encodes_row, (Instr.sneImm 0 0).encodes_row, fun s x nn => ⟨?_, ?_⟩⟩
  · exact ⟨_, rfl, s.skipIf_spec beq_iff_eq⟩
  · exact ⟨_, rfl, s.skipIf_spec bne_iff_ne⟩

/-- Settles O22: both are skips on a comparison of two registers, and the decoder accepts the low nibble 0 only. -/
theorem skipOnRegister : Obligations.SkipOnRegister := by
  unfold Obligations.SkipOnRegister
  refine ⟨(Instr.seReg 0 0).encodes_row, (Instr.sneReg 0 0).encodes_row, ?_, fun s x y => ⟨?_, ?_⟩⟩
  · exact fun op hf hn => decodeWord_eq_none_of_opN_ne_zero hf hn
  · exact ⟨_, rfl, s.skipIf_spec beq_iff_eq⟩
  · exact ⟨_, rfl, s.skipIf_spec bne_iff_ne⟩

end Sys2Proof.Machine
end

section
/-! PROOFS. The family of 42_alu.md: copies and the bitwise operations. -/

namespace Sys2Proof.Machine

theorem State.setV_changesOnly (s : State) (k : Reg) (b : Byte) : ChangesOnly (· = .v k) s (s.setV k b) := by
  intro c hc
  cases c
  case v j => exact State.setV_at_other s b fun hkj => hc (congrArg Component.v hkj.symm)
  all_goals rfl

/-- A write of one register and the next instruction: the shape of every instruction that only computes V[x] (R120). -/
theorem State.setV_advance_spec (s : State) (x : Reg) (b : Byte) :
    (s.setV x b).advance.v x = b ∧ AdvancesBy 2 s (s.setV x b).advance ∧
      ChangesOnly (fun c => c = .v x ∨ c = .pc) s (s.setV x b).advance :=
  ⟨s.setV_at_same x b, AdvancesBy_add rfl rfl, (s.setV_changesOnly x b).trans ((s.setV x b).setPc_changesOnly _)⟩

theorem writeReg_spec (x : Reg) (b : Byte) (s : State) :
    ∃ t, writeReg x b s = .next t ∧ t.v x = b ∧ AdvancesBy 2 s t ∧ ChangesOnly (fun c => c = .v x ∨ c = .pc) s t :=
  ⟨_, rfl, s.setV_advance_spec x b⟩

/-- Settles O25: each of the four is one write of V[x]; no flag is written, so VF is V[0xF] like any other register. -/
theorem copyAndLogic : Obligations.CopyAndLogic := by
  unfold Obligations.CopyAndLogic
  refine ⟨(Instr.ldReg 0 0).encodes_row, (Instr.orReg 0 0).encodes_row, (Instr.andReg 0 0).encodes_row,
    (Instr.xorReg 0 0).encodes_row, fun s x y => ⟨?copy, ?or, ?and, ?xor⟩⟩
  case copy => exact writeReg_spec x (s.v y) s
  case or => exact writeReg_spec x (s.v x ||| s.v y) s
  case and => exact writeReg_spec x (s.v x &&& s.v y) s
  case xor => exact writeReg_spec x (s.v x ^^^ s.v y) s

end Sys2Proof.Machine
end

section
/-! PROOFS. The family of 45_immediate_index.md: the families that `UNLISTED_OPS` refuses, and the immediate load. -/

namespace Sys2Proof

/-- The unlisted instructions are those of families 7, A and C (R184). -/
theorem Instr.unlisted_iff_opFamily_encode (i : Instr) :
    i.unlisted = true ↔ opFamily (encode i) = 0x7 ∨ opFamily (encode i) = 0xA ∨ opFamily (encode i) = 0xC := by
  cases i
  case cls | ret => decide
  case jp | call | ldI | jpV0 => simp [unlisted, encode, opFamily_encodeNNN]
  case seImm | sneImm | ldImm | addImm | rnd | skp | sknp | ldVxDT | ldVxK | ldDTVx | ldSTVx | addIVx | ldFVx | ldBVx |
      ldMemVx | ldVxMem =>
    simp [unlisted, encode, opFamily_encodeXNN]
  case seReg | ldReg | orReg | andReg | xorReg | addReg | subReg | shr | subnReg | shl | sneReg | drw =>
    simp [unlisted, encode, opFamily_encodeXYN]

/-- What `refuse` makes of a word turns on its family alone: families 7, A and C are Unknown, and the others dispatch as under
`include` (R76, R184). -/
theorem dispatch_refuse (op : Word) :
    dispatch .refuse op =
      if opFamily op = 0x7 ∨ opFamily op = 0xA ∨ opFamily op = 0xC then none else decodeWord op := by
  cases hd : decodeWord op with
  | none => simp [dispatch, hd]
  | some i =>
    have hfam := i.unlisted_iff_opFamily_encode
    rw [encode_of_decodeWord hd] at hfam
    rw [if_congr hfam.symm rfl rfl, dispatch, hd, Option.filter_some]
    cases hu : i.unlisted <;> simp [UnlistedOps.admits, hu]

end Sys2Proof

namespace Sys2Proof.Machine

/-- A step of a loaded machine whose fetched word dispatches to Unknown raises UnknownOpcode (R90, R201). -/
theorem step_of_dispatch_none {s : State} {op : Word} (hl : s.loaded = true) (hf : s.fetch = .ok op)
    (hd : dispatch s.params.unlistedOps op = none) : step s = .fault (.unknownOpcode op s.pc) := by
  simp [step, runCycle, hl, hf, hd, raise]

/-- Settles O8: under `refuse` the family of the word decides whether it is Unknown, and an Unknown word raises. -/
theorem unlistedFamiliesRaise : Obligations.UnlistedFamiliesRaise := by
  unfold Obligations.UnlistedFamiliesRaise
  constructor
  · intro s op hu hl hf hfam
    have hd : dispatch s.params.unlistedOps op = none := by rw [hu, dispatch_refuse, if_pos hfam]
    have hstep := step_of_dispatch_none hl hf hd
    exact ⟨hstep, stateAfter_of_fault hstep s⟩
  · intro op h7 hA hC
    rw [dispatch_refuse, if_neg (by tauto)]

/-- Settles O31: a write of V[x] and the next instruction. -/
theorem loadImmediate : Obligations.LoadImmediate := by
  unfold Obligations.LoadImmediate
  exact ⟨(Instr.ldImm 0 0).encodes_row, fun s x nn => ⟨_, rfl, s.setV_advance_spec x nn⟩⟩

end Sys2Proof.Machine
end

section
/-! PROOFS. The family of 60_exceptions.md: the unknown word, the tick, and the host's accesses. -/

namespace Sys2Proof

/-! ### The unlisted functions of families 8, E and F (R131, R153, R165) -/

theorem decodeFamily8_eq_none {op : Word} (h : opN op ∈ [8, 9, 0xA, 0xB, 0xC, 0xD, 0xF]) : decodeFamily8 op = none := by
  unfold decodeFamily8
  split
  case h_10 => rfl
  all_goals
    rename_i hn
    rw [hn] at h
    exact absurd h (by decide)

theorem decodeFamilyE_eq_none {op : Word} (hskp : opNN op ≠ 0x9E) (hsknp : opNN op ≠ 0xA1) :
    decodeFamilyE op = none := by
  unfold decodeFamilyE
  split
  case h_1 hn => exact absurd (BitVec.eq_of_toNat_eq hn) hskp
  case h_2 hn => exact absurd (BitVec.eq_of_toNat_eq hn) hsknp
  case h_3 => rfl

theorem decodeFamilyF_eq_none {op : Word}
    (h : opNN op ∉ ([0x07, 0x0A, 0x15, 0x18, 0x1E, 0x29, 0x33, 0x55, 0x65] : List Byte)) : decodeFamilyF op = none := by
  unfold decodeFamilyF
  split
  case h_10 => rfl
  all_goals
    rename_i hn
    exact absurd (by simp [← BitVec.toNat_inj, hn]) h

/-- A word that is no instruction is Unknown under either setting of `UNLISTED_OPS` (R76). -/
theorem dispatch_eq_none_of_decodeWord {op : Word} (h : decodeWord op = none) (u : UnlistedOps) : dispatch u op = none := by
  rw [dispatch, h, Option.filter_none]

end Sys2Proof

namespace Sys2Proof.Machine

/-! ### Frames of the tick and of the host's accesses -/

theorem State.countTimers_changesOnly (s : State) : ChangesOnly (fun c => c = .DT ∨ c = .ST) s s.countTimers := by
  intro c hc
  cases c
  case DT => exact absurd (.inl rfl) hc
  case ST => exact absurd (.inr rfl) hc
  all_goals rfl

theorem setKey_changesOnly (k : Key) (b : Bool) (s : State) : ChangesOnly (· = .key k) s (setKey k b s) := by
  intro c hc
  cases c
  case key j =>
    have hkj : k ≠ j := fun e => hc (congrArg Component.key e.symm)
    exact (setKey_at_key s k b j).trans (if_neg hkj)
  all_goals rfl

theorem clearDrawFlag_changesOnly (s : State) : ChangesOnly (· = .drawFlag) s (clearDrawFlag s) := by
  intro c hc
  cases c
  case drawFlag => exact absurd rfl hc
  all_goals rfl

/-- The tone is raised by a tick that finds ST at 1 (R221). -/
theorem State.tone_eq (s : State) : s.tone = decide (s.ST.toNat = 1) := by
  rw [State.tone, Bool.eq_iff_iff, beq_iff_eq, decide_eq_true_iff]
  exact BitVec.toNat_inj.symm

/-- A tick of a loaded machine counts both timers (R220). -/
theorem tick_of_loaded {s : State} (hl : s.loaded = true) : tick s = .next (s.countTimers, s.tone) := if_pos hl

/-! ### The statements -/

/-- Settles O7: an Unknown word raises, and the decoder has no instruction for an unlisted function of families 8, E and F. -/
theorem unknownWordRaises : Obligations.UnknownWordRaises := by
  unfold Obligations.UnknownWordRaises
  constructor
  · intro s op hl hf hd
    have hstep := step_of_dispatch_none hl hf hd
    exact ⟨hstep, stateAfter_of_fault hstep s⟩
  · intro u op h
    refine dispatch_eq_none_of_decodeWord ?_ u
    rcases h with ⟨hf, hn⟩ | ⟨hf, hskp, hsknp⟩ | ⟨hf, hnn⟩
    · simp [decodeWord, hf, decodeFamily8_eq_none hn]
    · simp [decodeWord, hf, decodeFamilyE_eq_none hskp hsknp]
    · simp [decodeWord, hf, decodeFamilyF_eq_none hnn]

/-- Settles O53: a tick counts each timer down by one, where the subtraction of naturals stays at 0. -/
theorem tickCountsDown : Obligations.TickCountsDown := by
  unfold Obligations.TickCountsDown
  intro s hl
  refine ⟨s.countTimers, ?_, countDown_toNat s.DT, countDown_toNat s.ST, s.countTimers_changesOnly⟩
  rw [tick_of_loaded hl, s.tone_eq]

/-- Settles O56: none of the three accesses asks whether a program is loaded, and each has its own frame. -/
theorem hostAccesses : Obligations.HostAccesses := by
  unfold Obligations.HostAccesses
  refine fun σ k b => ⟨⟨_, rfl, ?_, setKey_changesOnly k b σ.core⟩, rfl, ⟨_, rfl, rfl, clearDrawFlag_changesOnly σ.core⟩⟩
  exact (setKey_at_key σ.core k b k).trans (if_pos rfl)

end Sys2Proof.Machine
end

section
/-! PROOFS. Encoding and decoding (30_encoding.md): the two directions of the round trip, and the words that are no
instruction. -/

namespace Sys2Proof

open Machine

/-! ### The round trip -/

/-- The fields of the word of a well-formed instruction are its operands (R71, R73). -/
theorem Instr.withFieldsOf_encode {i : Instr} (h : i.WellFormed) : i.withFieldsOf (encode i) = i := by
  cases i
  case cls | ret => rfl
  case jp | call | ldI | jpV0 => simp [withFieldsOf, encode, opNNN_encodeNNN _ h]
  case seImm | sneImm | ldImm | addImm | rnd => simp [withFieldsOf, encode, opX_encodeXNN, opNN_encodeXNN]
  case skp | sknp | ldVxDT | ldVxK | ldDTVx | ldSTVx | addIVx | ldFVx | ldBVx | ldMemVx | ldVxMem =>
    simp [withFieldsOf, encode, opX_encodeXNN]
  case seReg | ldReg | orReg | andReg | xorReg | addReg | subReg | shr | subnReg | shl | sneReg =>
    simp [withFieldsOf, encode, opX_encodeXYN, opY_encodeXYN]
  case drw x y n =>
    have hn : n ≤ 15 := of_decide_eq_true h
    have hmod : n % 16 = n := Nat.mod_eq_of_lt (by omega)
    simp [withFieldsOf, encode, opX_encodeXYN, opY_encodeXYN, opN_encodeXYN, hmod]

/-- The word of a well-formed instruction has the fixed bits of its row, so it decodes to that row with its own operands. -/
theorem decodeWord_encode {i : Instr} (h : i.WellFormed) : decodeWord (encode i) = some i := by
  rw [i.encodes_row _ (encode_and_mask i), Instr.withFieldsOf_encode h]

/-- Operands that are fields of a word fit their fields. -/
theorem Instr.wellFormed_withFieldsOf (i : Instr) (op : Word) : (i.withFieldsOf op).WellFormed := by
  cases i
  case jp | call | ldI | jpV0 => exact fitsNNN_opNNN op
  case drw =>
    have hn : opN op ≤ 15 := by rw [opN_eq]; omega
    exact decide_eq_true hn
  all_goals rfl

/-- A decoded instruction has the fields of its word as its operands. -/
theorem withFieldsOf_of_decodeWord {op : Word} {i : Instr} (h : decodeWord op = some i) : i.withFieldsOf op = i := by
  have hrow : op &&& i.row.mask = i.row.value := by rw [← encode_of_decodeWord h, encode_and_mask]
  exact Option.some.inj ((i.encodes_row op hrow).symm.trans h)

theorem wellFormed_of_decodeWord {op : Word} {i : Instr} (h : decodeWord op = some i) : i.WellFormed :=
  withFieldsOf_of_decodeWord h ▸ i.wellFormed_withFieldsOf op

/-- Settles O2: the two bytes make up the instruction's word, and that word decodes to the instruction. -/
theorem decodeOfEncodeIsTheInstruction : Obligations.DecodeOfEncodeIsTheInstruction := by
  unfold Obligations.DecodeOfEncodeIsTheInstruction
  intro i rest hi
  refine decode_eq_ok.mpr ⟨hiByte (encode i), loByte (encode i), rfl, ?_⟩
  rw [wordOfBytes_hiByte_loByte, decodeWord_encode hi]

/-- Settles O3: the operands of a decoded instruction are fields of its word, and its fixed bits are those of the word. -/
theorem encodeOfDecodeIsTheWord : Obligations.EncodeOfDecodeIsTheWord := by
  unfold Obligations.EncodeOfDecodeIsTheWord
  exact fun op i h => ⟨wellFormed_of_decodeWord h, encode_of_decodeWord h⟩

/-! ### The words that are no instruction, family by family (R76) -/

theorem decodeFamily0_eq_none_iff (op : Word) : decodeFamily0 op = none ↔ op ≠ 0x00E0 ∧ op ≠ 0x00EE := by
  unfold decodeFamily0
  split_ifs with hcls hret
  · simp [hcls]
  · simp [hret]
  · exact iff_of_true rfl ⟨hcls, hret⟩

theorem decodeFamily5_eq_none_iff (op : Word) : decodeFamily5 op = none ↔ opN op ≠ 0 := by
  simp [decodeFamily5]

theorem decodeFamily9_eq_none_iff (op : Word) : decodeFamily9 op = none ↔ opN op ≠ 0 := by
  simp [decodeFamily9]

theorem decodeFamily8_eq_none_iff (op : Word) :
    decodeFamily8 op = none ↔ opN op ∈ [8, 9, 0xA, 0xB, 0xC, 0xD, 0xF] := by
  refine ⟨fun h => ?_, decodeFamily8_eq_none⟩
  have hlt : opN op < 16 := by rw [opN_eq]; omega
  unfold decodeFamily8 at h
  split at h
  case h_10 =>
    simp only [imp_false] at *
    simp only [List.mem_cons, List.not_mem_nil, or_false]
    omega
  all_goals cases h

theorem decodeFamilyE_eq_none_iff (op : Word) : decodeFamilyE op = none ↔ opNN op ≠ 0x9E ∧ opNN op ≠ 0xA1 := by
  refine ⟨fun h => ⟨fun hskp => ?_, fun hsknp => ?_⟩, fun h => decodeFamilyE_eq_none h.1 h.2⟩
  · simp [decodeFamilyE, hskp] at h
  · simp [decodeFamilyE, hsknp] at h

theorem decodeFamilyF_eq_none_iff (op : Word) :
    decodeFamilyF op = none ↔
      opNN op ∉ ([0x07, 0x0A, 0x15, 0x18, 0x1E, 0x29, 0x33, 0x55, 0x65] : List Byte) := by
  refine ⟨fun h hmem => ?_, decodeFamilyF_eq_none⟩
  simp only [List.mem_cons, List.not_mem_nil, or_false] at hmem
  rcases hmem with hn | hn | hn | hn | hn | hn | hn | hn | hn <;> simp [decodeFamilyF, hn] at h

/-- Settles O5: the family decides; six of them have words that are no instruction, and the other ten have none. -/
theorem unknownWordsAreTheListedOnes : Obligations.UnknownWordsAreTheListedOnes := by
  unfold Obligations.UnknownWordsAreTheListedOnes
  intro op
  have hfam : ∀ k : BitVec 4, opFamily op = k ↔ (opFamily op).toNat = k.toNat := fun k => BitVec.toNat_inj.symm
  have hlt := (opFamily op).isLt
  simp only [dispatch_incl, decodeWord, hfam]
  split
  case h_17 =>
    exfalso
    simp only [imp_false] at *
    omega
  all_goals
    rename_i hn
    simp [hn, decodeFamily0_eq_none_iff, decodeFamily5_eq_none_iff, decodeFamily8_eq_none_iff,
      decodeFamily9_eq_none_iff, decodeFamilyE_eq_none_iff, decodeFamilyF_eq_none_iff]

/-- Settles O1: the decoder is run on each of the words. -/
theorem sampleWordsDecode : Obligations.SampleWordsDecode := by
  unfold Obligations.SampleWordsDecode
  decide

end Sys2Proof
end

section
/-! PROOFS. The outcomes of a step (40_cycle.md R90 to R96, 60_exceptions.md R200 to R210): which error an instruction raises, which
words the model refuses, and what neither depends on. -/

namespace Sys2Proof

/-- The registers of the instruction whose being VF makes its result depend on the order of the VF write (R132). -/
def Instr.orderedOperands : Instr → List Reg
  | .addReg x y | .subReg x y | .subnReg x y => [x, y]
  | .shr x _ | .shl x _ => [x]
  | _ => []

end Sys2Proof

namespace Sys2Proof.Machine

/-! ### What the shared operations raise and refuse -/

theorem withRange_eq_fault {base count : Nat} {t : State} {c : Fault} :
    withRange base count (.next t) = .fault c ↔
      ¬ (count = 0 ∨ base + count ≤ 0x1000) ∧ c = .memoryOutOfRange (max base 0x1000) := by
  by_cases h : count = 0 ∨ base + count ≤ 0x1000
  · simp [withRange_fits h, h]
  · simp [withRange_raises h, h, eq_comm]

theorem withRange_ne_refused (base count : Nat) (t : State) (r : Refusal) :
    withRange base count (.next t) ≠ .refused r := by
  by_cases h : count = 0 ∨ base + count ≤ 0x1000
  · simp [withRange_fits h]
  · simp [withRange_raises h]

theorem withVfPolicy_ne_fault (named : List Reg) (s t : State) (c : Fault) :
    withVfPolicy named s (.next t) ≠ .fault c := by
  rcases withVfPolicy_cases s named (.next t) with ⟨-, e⟩ | ⟨-, -, e⟩ <;> simp [e]

theorem withVfPolicy_eq_refused {named : List Reg} {s t : State} {r : Refusal} :
    withVfPolicy named s (.next t) = .refused r ↔
      s.params.vfOperandPolicy = .refuse ∧ flagReg ∈ named ∧ r = .vfOperand := by
  rcases withVfPolicy_cases s named (.next t) with ⟨hruns, e⟩ | ⟨hp, hm, e⟩
  · rw [e]
    rcases hruns with hp | hm
    · simp [hp]
    · simp [hm]
  · simp [e, hp, hm, eq_comm]

/-- A key value of at most 15 selects a key, whose state decides the skip (R150). -/
theorem skipOnKey_of_key {s : State} {x : Reg} {k : Key} (h : (s.v x).toNat = k.val) (pressed : Bool) :
    skipOnKey x pressed s = .next (s.skipIf (s.key k == pressed)) := by
  simp [skipOnKey, keyOf_eq_some.mpr h]

/-- A key value above 15 selects none (R150, R206). -/
theorem skipOnKey_of_large {s : State} {x : Reg} (h : 15 < (s.v x).toNat) (pressed : Bool) :
    skipOnKey x pressed s = .fault (.keyIndexOutOfRange (s.v x)) := by
  simp [skipOnKey, keyOf_eq_none.mpr h, raise]

/-- A register value selects a key or is above 15. -/
theorem keyValue_cases (b : Byte) : (∃ k : Key, b.toNat = k.val) ∨ 15 < b.toNat := by
  by_cases h : b.toNat < 16
  · exact .inl ⟨⟨b.toNat, h⟩, rfl⟩
  · exact .inr (by omega)

theorem skipOnKey_eq_fault {s : State} {x : Reg} {pressed : Bool} {c : Fault} :
    skipOnKey x pressed s = .fault c ↔ 15 < (s.v x).toNat ∧ c = .keyIndexOutOfRange (s.v x) := by
  rcases keyValue_cases (s.v x) with ⟨k, hk⟩ | hlarge
  · have hle : ¬ 15 < (s.v x).toNat := by omega
    simp [skipOnKey_of_key hk, hle]
  · simp [skipOnKey_of_large hlarge, hlarge, eq_comm]

theorem skipOnKey_ne_refused (x : Reg) (pressed : Bool) (s : State) (r : Refusal) :
    skipOnKey x pressed s ≠ .refused r := by
  rcases keyValue_cases (s.v x) with ⟨k, hk⟩ | hlarge
  · simp [skipOnKey_of_key hk]
  · simp [skipOnKey_of_large hlarge]

/-- A stack with no place left is full, and every other one takes a push (R28, R103). -/
theorem exec_call_cases (nnn : Word) (s : State) :
    (s.sp = 16 ∧ exec (.call nnn) s = .fault .stackOverflow) ∨ s.sp ≠ 16 ∧ ∃ t, exec (.call nnn) s = .next t := by
  cases hp : s.push s.pc with
  | none => exact .inl ⟨State.push_eq_none.mp hp, exec_call_of_full (State.push_eq_none.mp hp) nnn⟩
  | some t => exact .inr ⟨fun h => by simp [State.push_eq_none.mpr h] at hp, _, exec_call_of_push hp nnn⟩

/-- A stack with no entry in use is empty, and every other one can be popped (R28, R101). -/
theorem exec_ret_cases (s : State) :
    (s.sp = 0 ∧ exec .ret s = .fault .stackUnderflow) ∨ s.sp ≠ 0 ∧ ∃ t, exec .ret s = .next t := by
  cases hp : s.pop with
  | none => exact .inl ⟨State.pop_eq_none.mp hp, exec_ret_of_empty (State.pop_eq_none.mp hp)⟩
  | some p => exact .inr ⟨fun h => by simp [State.pop_eq_none.mpr h] at hp, _, exec_ret_of_pop hp⟩

/-- Fx0A with no key pressed leaves the state as it was (R157, R158). -/
theorem exec_ldVxK_of_no_key {s : State} (h : ∀ k, s.key k = false) (x : Reg) : exec (.ldVxK x) s = .next s := by
  simp [exec, execLdVxK, State.firstKey_eq_none.mpr h]

/-- Fx0A with a key pressed puts the lowest one's number in V[x] (R157; D12). -/
theorem exec_ldVxK_of_key {s : State} {k : Key} (h : s.firstKey = some k) (x : Reg) :
    exec (.ldVxK x) s = .next (s.setV x (BitVec.ofNat 8 k.val)).advance := by
  simp [exec, execLdVxK, h]

theorem exec_ldVxK_next (x : Reg) (s : State) : ∃ t, exec (.ldVxK x) s = .next t := by
  cases hk : s.firstKey with
  | none => exact ⟨s, exec_ldVxK_of_no_key (State.firstKey_eq_none.mp hk) x⟩
  | some k => exact ⟨_, exec_ldVxK_of_key hk x⟩

/-! ### The error of an instruction, and the words of R132 -/

/-- `c` is the error of an access to `count` bytes from I on that leaves memory (R159, R204). -/
def BlockRaises (s : State) (count : Nat) (c : Fault) : Prop :=
  ¬ (count = 0 ∨ s.I.toNat + count ≤ 0x1000) ∧ c = .memoryOutOfRange (max s.I.toNat 0x1000)

/-- The condition `c` is the one the instruction raises in `s` (R200, R202 to R204, R206). -/
def Raises (s : State) (c : Fault) : Instr → Prop
  | .ret => s.sp = 0 ∧ c = .stackUnderflow
  | .call _ => s.sp = 16 ∧ c = .stackOverflow
  | .drw _ _ n => BlockRaises s n c
  | .ldBVx _ => BlockRaises s 3 c
  | .ldMemVx x | .ldVxMem x => BlockRaises s (blockCount x) c
  | .skp x | .sknp x => 15 < (s.v x).toNat ∧ c = .keyIndexOutOfRange (s.v x)
  | _ => False

/-- An instruction raises what `Raises` says, and nothing else. -/
theorem exec_eq_fault {i : Instr} {s : State} {c : Fault} : exec i s = .fault c ↔ Raises s c i := by
  cases i
  case ret => rcases exec_ret_cases s with ⟨h, e⟩ | ⟨h, t, e⟩ <;> simp [Raises, e, h, eq_comm]
  case call w => rcases exec_call_cases w s with ⟨h, e⟩ | ⟨h, t, e⟩ <;> simp [Raises, e, h, eq_comm]
  case drw | ldBVx | ldMemVx | ldVxMem => exact withRange_eq_fault
  case skp | sknp => exact skipOnKey_eq_fault
  case addReg | subReg | shr | subnReg | shl => exact iff_of_false (withVfPolicy_ne_fault _ _ _ _) id
  case ldVxK x =>
    obtain ⟨t, e⟩ := exec_ldVxK_next x s
    simp [Raises, e]
  all_goals exact iff_of_false (fun h => by cases h) id

/-- An instruction is refused exactly under `VF_OPERAND_POLICY = refuse` on the words of R132. -/
theorem exec_eq_refused {i : Instr} {s : State} {r : Refusal} :
    exec i s = .refused r ↔
      s.params.vfOperandPolicy = .refuse ∧ flagReg ∈ i.orderedOperands ∧ r = .vfOperand := by
  cases i
  case addReg | subReg | shr | subnReg | shl => exact withVfPolicy_eq_refused
  case ret => rcases exec_ret_cases s with ⟨-, e⟩ | ⟨-, t, e⟩ <;> simp [Instr.orderedOperands, e]
  case call w => rcases exec_call_cases w s with ⟨-, e⟩ | ⟨-, t, e⟩ <;> simp [Instr.orderedOperands, e]
  case drw | ldBVx | ldMemVx | ldVxMem =>
    exact iff_of_false (withRange_ne_refused _ _ _ _) (by simp [Instr.orderedOperands])
  case skp | sknp => exact iff_of_false (skipOnKey_ne_refused _ _ _ _) (by simp [Instr.orderedOperands])
  case ldVxK x =>
    obtain ⟨t, e⟩ := exec_ldVxK_next x s
    simp [Instr.orderedOperands, e]
  all_goals exact iff_of_false (fun h => by cases h) (by simp [Instr.orderedOperands])

/-! ### The step -/

theorem step_of_not_loaded {s : State} (h : s.loaded = false) : step s = .refused .notLoaded := by
  simp [step, runCycle, h]

theorem step_of_fetch_error {s : State} (hl : s.loaded = true) (hp : 0xFFE < s.pc.toNat) :
    step s = .fault (.memoryOutOfRange (max s.pc.toNat 0x1000)) := by
  simp [step, runCycle, hl, State.fetch_eq_error.mpr ⟨hp, rfl⟩, raise]

/-- The errors of a step: that of the fetch, that of an Unknown word, and that of the instruction (R208). -/
theorem step_eq_fault {s : State} {c : Fault} :
    step s = .fault c ↔ s.loaded = true ∧
      ((0xFFE < s.pc.toNat ∧ c = .memoryOutOfRange (max s.pc.toNat 0x1000)) ∨
        (∃ op, s.fetch = .ok op ∧ dispatch s.params.unlistedOps op = none ∧ c = .unknownOpcode op s.pc) ∨
        ∃ i, s.nextInstr = some i ∧ Raises s c i) := by
  constructor
  · intro h
    rcases step_cases s with ⟨-, e⟩ | ⟨hl, hp, e⟩ | ⟨hl, op, hf, hd, e⟩ | ⟨hl, i, hi, e⟩
    · simp [e] at h
    · exact ⟨hl, .inl ⟨hp, by simpa [e, eq_comm] using h⟩⟩
    · exact ⟨hl, .inr (.inl ⟨op, hf, hd, by simpa [e, eq_comm] using h⟩)⟩
    · exact ⟨hl, .inr (.inr ⟨i, hi, exec_eq_fault.mp (e.symm.trans h)⟩)⟩
  · rintro ⟨hl, ⟨hp, rfl⟩ | ⟨op, hf, hd, rfl⟩ | ⟨i, hi, hr⟩⟩
    · exact step_of_fetch_error hl hp
    · exact step_of_dispatch_none hl hf hd
    · exact (step_of_nextInstr hl hi).trans (exec_eq_fault.mpr hr)

/-- What an instruction raises rests on sp, I and V alone. -/
theorem Raises.congr {s t : State} (hsp : t.sp = s.sp) (hI : t.I = s.I) (hV : t.V = s.V) {c : Fault} {i : Instr}
    (h : Raises s c i) : Raises t c i := by
  have hv : ∀ x, t.v x = s.v x := fun x => by rw [State.v, State.v, hV]
  cases i
  case ret | call => exact ⟨hsp.trans h.1, h.2⟩
  case skp x | sknp x => simpa [Raises, hv] using h
  case drw | ldBVx | ldMemVx | ldVxMem => simpa [Raises, BlockRaises, hI] using h
  all_goals exact h

/-- Settles O9: the bound of the fetch is the first check of a loaded machine. -/
theorem fetchOutOfRangeRaises : Obligations.FetchOutOfRangeRaises := by
  unfold Obligations.FetchOutOfRangeRaises
  intro s hl hp
  exact ⟨step_of_fetch_error hl hp, stateAfter_of_fault (step_of_fetch_error hl hp) s⟩

/-- Settles O10: both ask whether a program is loaded before anything else. -/
theorem nothingRunsUnlessLoaded : Obligations.NothingRunsUnlessLoaded := by
  unfold Obligations.NothingRunsUnlessLoaded
  intro s h
  have hstep := step_of_not_loaded h
  exact ⟨hstep, by simp [tick, h], by rw [hstep]; rfl⟩

/-- Settles O11: the jump writes the pc that is there. -/
theorem haltedStateStepsToItself : Obligations.HaltedStateStepsToItself := by
  unfold Obligations.HaltedStateStepsToItself
  intro s hl hh
  exact step_of_nextInstr hl (beq_iff_eq.mp hh)

/-- Settles O13: a loaded machine refuses only what its instruction refuses. -/
theorem refusedInTwoCasesOnly : Obligations.RefusedInTwoCasesOnly := by
  unfold Obligations.RefusedInTwoCasesOnly
  intro s r h
  rcases step_cases s with ⟨hl, e⟩ | ⟨-, -, e⟩ | ⟨-, op, -, -, e⟩ | ⟨-, i, hi, e⟩
  · exact .inl ⟨by simpa [e, eq_comm] using h, hl⟩
  · simp [e] at h
  · simp [e] at h
  · obtain ⟨hp, hm, rfl⟩ := exec_eq_refused.mp (e.symm.trans h)
    refine .inr ⟨rfl, hp, ?_⟩
    cases i
    case addReg x y | subReg x y | subnReg x y =>
      refine ⟨x, y, .inl ⟨?_, by simp [hi]⟩⟩
      simpa [Instr.orderedOperands, flagReg, eq_comm] using hm
    case shr x y | shl x y =>
      refine ⟨x, y, .inr ⟨?_, by simp [hi]⟩⟩
      simpa [Instr.orderedOperands, flagReg, eq_comm] using hm
    all_goals simp [Instr.orderedOperands] at hm

/-- Settles O14: a step has three kinds of error, and each instruction its own. -/
theorem stepErrorsAreOfTheirInstruction : Obligations.StepErrorsAreOfTheirInstruction := by
  unfold Obligations.StepErrorsAreOfTheirInstruction
  intro s c h
  have hpc := s.pc.isLt
  have hI := s.I.isLt
  obtain ⟨-, ⟨hp, rfl⟩ | ⟨op, hf, hd, rfl⟩ | ⟨i, hi, hr⟩⟩ := step_eq_fault.mp h
  · exact ⟨by omega, by omega, .inl ⟨hp, rfl⟩⟩
  · exact ⟨rfl, hf, hd⟩
  · have hp := State.pc_of_nextInstr hi
    cases i
    case ret => obtain ⟨hsp, rfl⟩ := hr; exact ⟨hsp, hi⟩
    case call w => obtain ⟨hsp, rfl⟩ := hr; exact ⟨hsp, w, hi⟩
    case skp x | sknp x => obtain ⟨hv, rfl⟩ := hr; exact ⟨hv, x, rfl, by simp [hi]⟩
    case drw x y n =>
      obtain ⟨hrange, rfl⟩ := hr
      exact ⟨by omega, by omega, .inr ⟨hp, rfl, .inl ⟨x, y, n, hi⟩⟩⟩
    case ldBVx x | ldMemVx x | ldVxMem x =>
      obtain ⟨hrange, rfl⟩ := hr
      exact ⟨by omega, by omega, .inr ⟨hp, rfl, .inr ⟨x, by simp [hi]⟩⟩⟩
    all_goals exact hr.elim

/-- Settles O15: what a step raises rests on `loaded`, pc, memory, the parameters, sp, I and V. -/
theorem errorIsRepeated : Obligations.ErrorIsRepeated := by
  unfold Obligations.ErrorIsRepeated
  intro s c ks d e f n h
  obtain ⟨hl, hcases⟩ := step_eq_fault.mp h
  refine step_eq_fault.mpr ⟨hl, ?_⟩
  rcases hcases with hfetch | ⟨op, hf, hd, hc⟩ | ⟨i, hi, hr⟩
  · exact .inl hfetch
  · exact .inr (.inl ⟨op, (State.fetch_congr rfl rfl).trans hf, hd, hc⟩)
  · exact .inr (.inr ⟨i, (State.nextInstr_congr rfl rfl rfl).trans hi, hr.congr rfl rfl rfl⟩)

/-! ### The four outcomes of a cycle (R92) -/

theorem State.atKeyWait_iff {s : State} : s.atKeyWait = true ↔ ∃ x, s.nextInstr = some (.ldVxK x) := by
  unfold State.atKeyWait
  split
  case h_1 x hi => exact iff_of_true rfl ⟨x, hi⟩
  case h_2 hne => exact iff_of_false Bool.false_ne_true fun ⟨x, hi⟩ => hne x hi

theorem State.waits_iff {s : State} :
    s.waits = true ↔ s.loaded = true ∧ (∃ x, s.nextInstr = some (.ldVxK x)) ∧ ∀ k, s.key k = false := by
  rw [State.waits, Bool.and_eq_true, Bool.and_eq_true, State.atKeyWait_iff, Option.isNone_iff_eq_none,
    State.firstKey_eq_none, and_assoc]

/-- A step that waits leaves the state as it was. -/
theorem step_of_waits {s : State} (h : s.waits = true) : step s = .next s := by
  obtain ⟨hl, ⟨x, hi⟩, hk⟩ := State.waits_iff.mp h
  rw [step_of_nextInstr hl hi, exec_ldVxK_of_no_key hk]

theorem cycle_of_waits {s : State} (h : s.waits = true) : cycle s = .waiting := if_pos h

/-- A cycle that does not wait has the outcome of the step. -/
theorem cycle_of_not_waits {s : State} (h : ¬ s.waits = true) :
    (∀ t, cycle s = .ok t ↔ step s = .next t) ∧ (∀ c, cycle s = .error c ↔ step s = .fault c) ∧
      (∀ r, cycle s = .refused r ↔ step s = .refused r) ∧ cycle s ≠ .waiting := by
  unfold cycle
  rw [if_neg h]
  change (∀ t, _ ↔ runCycle s = .next t) ∧ (∀ c, _ ↔ runCycle s = .fault c) ∧ (∀ r, _ ↔ runCycle s = .refused r) ∧ _
  cases runCycle s <;> simp

/-- Settles O12: a waiting cycle is a step to the same state, and every other cycle has the outcome of the step. -/
theorem cycleOutcomesAreThoseOfTheStep : Obligations.CycleOutcomesAreThoseOfTheStep := by
  unfold Obligations.CycleOutcomesAreThoseOfTheStep
  intro s
  rw [← State.waits_iff]
  by_cases hw : s.waits = true
  · simp [cycle_of_waits hw, step_of_waits hw, hw]
  · obtain ⟨hok, herror, hrefused, hne⟩ := cycle_of_not_waits hw
    exact ⟨iff_of_false hne hw, fun h => absurd h hne, fun t => (hok t).mp, herror, hrefused⟩

/-! ### The draw (R95) -/

/-- The outcome with the counter of draws set to `n` in its next state. -/
def withDraws (n : Nat) (o : Result) : Result :=
  match o with
  | .next t => .next { t with draws := n }
  | .fault c => .fault c
  | .refused r => .refused r

theorem withRange_draws {base count n : Nat} {run run' : Result} (hrun : run' = withDraws n run) :
    withRange base count run' = withDraws n (withRange base count run) := by
  subst hrun
  by_cases h : count = 0 ∨ base + count ≤ 0x1000
  · rw [withRange_fits h, withRange_fits h]
  · rw [withRange_raises h, withRange_raises h]; rfl

theorem withVfPolicy_draws {named : List Reg} {s : State} {n : Nat} {run run' : Result} (hrun : run' = withDraws n run) :
    withVfPolicy named { s with draws := n } run' = withDraws n (withVfPolicy named s run) := by
  subst hrun
  change (if refusesVF s named then _ else _) = withDraws n (if refusesVF s named then _ else _)
  split <;> rfl

theorem skipOnKey_draws (x : Reg) (pressed : Bool) (s : State) (n : Nat) :
    skipOnKey x pressed { s with draws := n } = withDraws n (skipOnKey x pressed s) := by
  rcases keyValue_cases (s.v x) with ⟨k, hk⟩ | hlarge
  · rw [skipOnKey_of_key hk, skipOnKey_of_key (s := { s with draws := n }) hk, State.skipIf_eq, State.skipIf_eq]; rfl
  · rw [skipOnKey_of_large hlarge, skipOnKey_of_large (s := { s with draws := n }) hlarge]; rfl

theorem State.plot_draws (s : State) (c : Col) (q : Row) (n : Nat) :
    ({ s with draws := n } : State).plot c q = { s.plot c q with draws := n } := by
  have hpixel : ({ s with draws := n } : State).pixel c q = s.pixel c q := rfl
  unfold State.plot
  rw [hpixel]
  cases s.pixel c q <;> rfl

theorem State.plotAll_draws (s : State) (cells : List (Col × Row)) (n : Nat) :
    ({ s with draws := n } : State).plotAll cells = { s.plotAll cells with draws := n } := by
  induction cells generalizing s with
  | nil => rfl
  | cons p ps ih =>
    change (State.plot _ p.1 p.2).plotAll ps = { (s.plot p.1 p.2).plotAll ps with draws := n }
    rw [State.plot_draws, ih]

theorem State.setVs_draws (s : State) (k : Nat) (bs : List Byte) (n : Nat) :
    ({ s with draws := n } : State).setVs k bs = { s.setVs k bs with draws := n } := by
  induction bs generalizing s k with
  | nil => rfl
  | cons b bs ih =>
    rw [State.setVs, State.setVs, ← ih]
    split <;> rfl

/-- The instruction does the same for every draw. -/
def IgnoresDraw (i : Instr) : Prop := ∀ (s : State) (n : Nat), exec i { s with draws := n } = withDraws n (exec i s)

theorem ret_ignoresDraw : IgnoresDraw .ret := by
  intro s n
  cases hp : s.pop with
  | none =>
    have hsp := State.pop_eq_none.mp hp
    rw [exec_ret_of_empty hsp, exec_ret_of_empty (s := { s with draws := n }) hsp]; rfl
  | some p =>
    obtain ⟨h, hw, ht⟩ := State.pop_eq_some.mp hp
    have hp' := State.pop_eq_some (s := { s with draws := n }).mpr ⟨h, rfl, rfl⟩
    rw [exec_ret_of_pop hp, exec_ret_of_pop hp', hw, ht]; rfl

theorem call_ignoresDraw (nnn : Word) : IgnoresDraw (.call nnn) := by
  intro s n
  cases hp : s.push s.pc with
  | none =>
    have hsp := State.push_eq_none.mp hp
    rw [exec_call_of_full hsp, exec_call_of_full (s := { s with draws := n }) hsp]; rfl
  | some t =>
    obtain ⟨h, ht⟩ := State.push_eq_some.mp hp
    have hp' := State.push_eq_some (s := { s with draws := n }) (w := s.pc).mpr ⟨h, rfl⟩
    rw [exec_call_of_push hp, exec_call_of_push hp', ht]; rfl

theorem drw_ignoresDraw (x y : Reg) (k : Nat) : IgnoresDraw (.drw x y k) := by
  intro s n
  refine withRange_draws ?_
  rw [State.drawRows_eq, State.drawRows_eq]
  have h := State.plotAll_draws (s.setVF 0) ((s.setVF 0).spriteCells (s.v x) (s.v y) k) n
  exact congrArg (fun t : State => Host.Outcome.next t.raiseDrawFlag.advance) h

theorem ldVxMem_ignoresDraw (x : Reg) : IgnoresDraw (.ldVxMem x) := by
  intro s n
  refine withRange_draws ?_
  have h := State.setVs_draws s 0 (s.blockBytes x) n
  exact congrArg (fun t : State => Host.Outcome.next (t.setI (indexPlus s.I (blockCount x))).advance) h

theorem ldVxK_ignoresDraw (x : Reg) : IgnoresDraw (.ldVxK x) := by
  intro s n
  cases hk : s.firstKey with
  | none =>
    have hnone := State.firstKey_eq_none.mp hk
    rw [exec_ldVxK_of_no_key hnone, exec_ldVxK_of_no_key (s := { s with draws := n }) hnone]; rfl
  | some k => rw [exec_ldVxK_of_key hk, exec_ldVxK_of_key (s := { s with draws := n }) hk]; rfl

/-- Settles O16: the counter of draws is carried along by every operation, and read by that of Cxnn alone. -/
theorem onlyRandomReadsTheDraw : Obligations.OnlyRandomReadsTheDraw := by
  unfold Obligations.OnlyRandomReadsTheDraw
  intro i s n hrnd
  change exec i { s with draws := n } = withDraws n (exec i s)
  cases i
  case rnd x nn => exact absurd rfl (hrnd x nn)
  case ret => exact ret_ignoresDraw s n
  case call w => exact call_ignoresDraw w s n
  case drw x y k => exact drw_ignoresDraw x y k s n
  case ldVxMem x => exact ldVxMem_ignoresDraw x s n
  case ldVxK x => exact ldVxK_ignoresDraw x s n
  case skp x | sknp x => exact skipOnKey_draws x _ s n
  case seImm | sneImm | seReg | sneReg =>
    simp only [exec, execSeImm, execSneImm, execSeReg, execSneReg, State.skipIf_eq]
    rfl
  case addReg | subReg | shr | subnReg | shl => exact withVfPolicy_draws rfl
  case ldBVx | ldMemVx => exact withRange_draws rfl
  all_goals rfl

end Sys2Proof.Machine
end

section
/-! PROOFS. Who writes what (10_state.md sections 5 and 8, 20_memory.md section 4): the frame of every instruction. -/

namespace Sys2Proof.Machine

/-! ### Frames of the updates that the families before this did not need -/

theorem ChangesOnly.refl (p : Component → Prop) (s : State) : ChangesOnly p s s := fun c _ => by
  cases c <;> rfl

theorem State.setI_changesOnly (s : State) (w : Word) : ChangesOnly (· = .I) s (s.setI w) := by
  intro c hc
  cases c
  case I => exact absurd rfl hc
  all_goals rfl

theorem State.setDT_changesOnly (s : State) (b : Byte) : ChangesOnly (· = .DT) s (s.setDT b) := by
  intro c hc
  cases c
  case DT => exact absurd rfl hc
  all_goals rfl

theorem State.setST_changesOnly (s : State) (b : Byte) : ChangesOnly (· = .ST) s (s.setST b) := by
  intro c hc
  cases c
  case ST => exact absurd rfl hc
  all_goals rfl

theorem State.useDraw_changesOnly (s : State) : ChangesOnly (· = .draws) s s.useDraw := by
  intro c hc
  cases c
  case draws => exact absurd rfl hc
  all_goals rfl

theorem State.allV_changesOnly (s : State) (V : Vector Byte 16) :
    ChangesOnly (fun c => ∃ k, c = .v k) s { s with V := V } := by
  intro c hc
  cases c
  case v k => exact absurd ⟨k, rfl⟩ hc
  all_goals rfl

theorem State.allFb_changesOnly (s : State) (fb : Vector (Vector Bool 32) 64) :
    ChangesOnly (fun k => ∃ c r, k = .pixel c r) s { s with fb := fb } := by
  intro k hk
  cases k
  case pixel c r => exact absurd ⟨c, r, rfl⟩ hk
  all_goals rfl

/-- A write of several bytes changes the cells of their addresses and nothing else. -/
theorem State.memWriteBytes_changesOnly (s : State) (a : Nat) (bs : List Byte) :
    ChangesOnly (fun c => ∃ k, k < bs.length ∧ c = .byte (a + k)) s (s.memWriteBytes a bs) := by
  intro c hc
  cases c
  case byte b =>
    refine (s.memRead_memWriteBytes a bs b).trans (if_neg fun hb => hc ⟨b - a, by omega, ?_⟩)
    rw [Nat.add_sub_cancel' hb.1]
  all_goals rfl

/-- A call that answers a next state has pushed its own address on the `k` entries in use. -/
theorem exec_call_next {s t : State} {nnn : Word} (h : exec (.call nnn) s = .next t) :
    ∃ (k : Fin 16) (u : State), s.sp.val = k.val ∧ t = u.setPc nnn ∧ u.stackEntry k = s.pc ∧ u.sp.val = k.val + 1 ∧
      ChangesOnly (fun c => c = .stack k ∨ c = .sp) s u := by
  obtain ⟨hlt, -⟩ := exec_next h
  obtain ⟨u, hpush, hspec⟩ := State.push_spec (s := s) (k := ⟨s.sp.val, hlt⟩) rfl s.pc
  cases (exec_call_of_push hpush nnn).symm.trans h
  exact ⟨_, u, rfl, rfl, hspec⟩

/-! ### The frame of every instruction -/

/-- The components an instruction may write, as the shape of its next state shows them. -/
def Writes : Instr → Component → Prop
  | .cls, k => ((∃ c r, k = .pixel c r) ∨ k = .drawFlag) ∨ k = .pc
  | .ret, c => c = .sp ∨ c = .pc
  | .jp _, c | .seImm _ _, c | .sneImm _ _, c | .seReg _ _, c | .sneReg _ _, c | .jpV0 _, c | .skp _, c | .sknp _, c =>
    c = .pc
  | .call _, c => ((∃ k, c = .stack k) ∨ c = .sp) ∨ c = .pc
  | .ldImm x _, c | .addImm x _, c | .ldReg x _, c | .orReg x _, c | .andReg x _, c | .xorReg x _, c | .ldVxDT x, c
  | .ldVxK x, c => c = .v x ∨ c = .pc
  | .addReg x _, c => (c = .v x ∨ c = .v flagReg) ∨ c = .pc
  | .subReg x _, c | .shr x _, c | .subnReg x _, c | .shl x _, c => (c = .v flagReg ∨ c = .v x) ∨ c = .pc
  | .ldI _, c | .ldFVx _, c => c = .I ∨ c = .pc
  | .rnd x _, c => (c = .v x ∨ c = .pc) ∨ c = .draws
  | .drw _ _ _, k => (((∃ j, k = .v j) ∨ ∃ c r, k = .pixel c r) ∨ k = .drawFlag) ∨ k = .pc
  | .ldDTVx _, c => c = .DT ∨ c = .pc
  | .ldSTVx _, c => c = .ST ∨ c = .pc
  | .addIVx _, c => (c = .I ∨ c = .v flagReg) ∨ c = .pc
  | .ldBVx _, c => (∃ a, c = .byte a) ∨ c = .pc
  | .ldMemVx _, c => ((∃ a, c = .byte a) ∨ c = .I) ∨ c = .pc
  | .ldVxMem _, c => ((∃ k, c = .v k) ∨ c = .I) ∨ c = .pc

theorem State.memWriteBytes_changesBytes (s : State) (a : Nat) (bs : List Byte) :
    ChangesOnly (fun c => ∃ b, c = .byte b) s (s.memWriteBytes a bs) :=
  (s.memWriteBytes_changesOnly a bs).mono fun _ ⟨_, _, h⟩ => ⟨_, h⟩

/-- An instruction changes what it may write and nothing else. -/
theorem exec_changesOnly {i : Instr} {s t : State} (h : exec i s = .next t) : ChangesOnly (Writes i) s t := by
  have hshape := exec_next h
  cases i
  case cls =>
    obtain rfl := hshape
    exact (s.clearFb_changesOnly.trans (State.raiseDrawFlag_changesOnly _)).trans (State.setPc_changesOnly _ _)
  case ret =>
    obtain ⟨hpos, -⟩ := hshape
    obtain ⟨u, hpop, -, hframe⟩ := State.pop_spec (s := s) (k := ⟨s.sp.val - 1, by omega⟩) (by simp only; omega)
    cases (exec_ret_of_pop hpop).symm.trans h
    exact hframe.trans (u.setPc_changesOnly _)
  case call w =>
    obtain ⟨k, u, -, rfl, -, -, hframe⟩ := exec_call_next h
    exact (hframe.mono fun c => Or.imp_left fun hc => ⟨k, hc⟩).trans (u.setPc_changesOnly w)
  case jp | jpV0 => obtain rfl := hshape; exact s.setPc_changesOnly _
  case seImm | sneImm | seReg | sneReg | skp | sknp =>
    rcases hshape with rfl | rfl
    · exact s.setPc_changesOnly _
    · exact s.setPc_changesOnly _
  case ldImm | addImm | ldReg | orReg | andReg | xorReg | ldVxDT =>
    obtain ⟨b, rfl⟩ := hshape
    exact (s.setV_changesOnly _ b).trans (State.setPc_changesOnly _ _)
  case ldVxK =>
    obtain rfl | ⟨b, rfl⟩ := hshape
    · exact ChangesOnly.refl _ _
    · exact (s.setV_changesOnly _ b).trans (State.setPc_changesOnly _ _)
  case addReg | subReg | shr | subnReg | shl =>
    obtain ⟨a, b, rfl⟩ := hshape
    exact ((s.setV_changesOnly _ _).trans (State.setV_changesOnly _ _ _)).trans (State.setPc_changesOnly _ _)
  case ldI => obtain rfl := hshape; exact (s.setI_changesOnly _).trans (State.setPc_changesOnly _ _)
  case ldFVx => obtain ⟨w, rfl⟩ := hshape; exact (s.setI_changesOnly w).trans (State.setPc_changesOnly _ _)
  case rnd =>
    obtain ⟨b, rfl⟩ := hshape
    exact ((s.setV_changesOnly _ b).trans (State.setPc_changesOnly _ _)).trans (State.useDraw_changesOnly _)
  case drw =>
    obtain ⟨V, fb, rfl⟩ := hshape
    exact (((s.allV_changesOnly V).trans (State.allFb_changesOnly _ fb)).trans
      (State.raiseDrawFlag_changesOnly _)).trans (State.setPc_changesOnly _ _)
  case ldDTVx => obtain rfl := hshape; exact (s.setDT_changesOnly _).trans (State.setPc_changesOnly _ _)
  case ldSTVx => obtain rfl := hshape; exact (s.setST_changesOnly _).trans (State.setPc_changesOnly _ _)
  case addIVx =>
    obtain ⟨w, b, rfl⟩ := hshape
    exact ((s.setI_changesOnly w).trans (State.setV_changesOnly _ _ _)).trans (State.setPc_changesOnly _ _)
  case ldBVx =>
    obtain ⟨-, rfl⟩ := hshape
    exact (s.memWriteBytes_changesBytes _ _).trans (State.setPc_changesOnly _ _)
  case ldMemVx =>
    obtain ⟨-, rfl⟩ := hshape
    exact ((s.memWriteBytes_changesBytes _ _).trans (State.setI_changesOnly _ _)).trans (State.setPc_changesOnly _ _)
  case ldVxMem =>
    obtain ⟨V, w, rfl⟩ := hshape
    exact ((s.allV_changesOnly V).trans (State.setI_changesOnly _ w)).trans (State.setPc_changesOnly _ _)

/-! ### The writers of each component -/

theorem not_writes_key (i : Instr) (k : Key) : ¬ Writes i (.key k) := by cases i <;> simp [Writes]

theorem not_writes_loaded (i : Instr) : ¬ Writes i .loaded := by cases i <;> simp [Writes]

theorem not_writes_params (i : Instr) : ¬ Writes i .params := by cases i <;> simp [Writes]

theorem writes_pixel {i : Instr} {c : Col} {r : Row} : Writes i (.pixel c r) ↔ i = .cls ∨ ∃ x y n, i = .drw x y n := by
  cases i <;> simp [Writes]

theorem writes_drawFlag {i : Instr} : Writes i .drawFlag ↔ i = .cls ∨ ∃ x y n, i = .drw x y n := by
  cases i <;> simp [Writes]

theorem writes_DT {i : Instr} : Writes i .DT ↔ ∃ x, i = .ldDTVx x := by cases i <;> simp [Writes]

theorem writes_ST {i : Instr} : Writes i .ST ↔ ∃ x, i = .ldSTVx x := by cases i <;> simp [Writes]

theorem writes_byte {i : Instr} {a : Nat} : Writes i (.byte a) ↔ ∃ x, i = .ldBVx x ∨ i = .ldMemVx x := by
  cases i <;> simp [Writes]

theorem writes_I {i : Instr} :
    Writes i .I ↔ (∃ w, i = .ldI w) ∨ ∃ x, i = .addIVx x ∨ i = .ldFVx x ∨ i = .ldMemVx x ∨ i = .ldVxMem x := by
  cases i <;> simp [Writes]

theorem writes_stack {i : Instr} {k : Fin 16} : Writes i (.stack k) ↔ ∃ w, i = .call w := by cases i <;> simp [Writes]

theorem writes_sp {i : Instr} : Writes i .sp ↔ i = .ret ∨ ∃ w, i = .call w := by cases i <;> simp [Writes]

/-- Both instructions that write drawFlag set it (R34, R100, R141). -/
theorem drawFlag_of_writes {i : Instr} {s t : State} (hw : Writes i .drawFlag) (h : exec i s = .next t) :
    t.drawFlag = true := by
  have hshape := exec_next h
  rcases writes_drawFlag.mp hw with rfl | ⟨x, y, n, rfl⟩
  · obtain rfl := hshape; rfl
  · obtain ⟨V, fb, rfl⟩ := hshape; rfl

/-! ### The statements -/

/-- Settles O49: none of the three is in the frame of any instruction. -/
theorem hostStateLeftAlone : Obligations.HostStateLeftAlone := by
  unfold Obligations.HostStateLeftAlone
  intro i s t h
  have hframe := exec_changesOnly h
  exact ⟨fun k => hframe (.key k) (not_writes_key i k), hframe .loaded (not_writes_loaded i),
    hframe .params (not_writes_params i)⟩

/-- Settles O50: the frame of every other instruction leaves both out, and the two that write drawFlag set it. -/
theorem displayWriters : Obligations.DisplayWriters := by
  unfold Obligations.DisplayWriters
  intro i s t h
  have hframe := exec_changesOnly h
  constructor
  · rintro ⟨hcls, hdrw⟩
    have hno : ¬ (i = .cls ∨ ∃ x y n, i = .drw x y n) := by simp [hcls, hdrw]
    exact ⟨fun c r => hframe (.pixel c r) (mt writes_pixel.mp hno), hframe .drawFlag (mt writes_drawFlag.mp hno)⟩
  · intro hs
    by_cases hw : Writes i .drawFlag
    · exact drawFlag_of_writes hw h
    · exact Eq.trans (hframe .drawFlag hw) hs

/-- Settles O51: a step runs one instruction, and one instruction each writes DT and ST. -/
theorem timersMoveOnlyByTheirWriters : Obligations.TimersMoveOnlyByTheirWriters := by
  unfold Obligations.TimersMoveOnlyByTheirWriters
  intro s t h
  obtain ⟨-, i, hi, hexec⟩ := step_next h
  have hframe := exec_changesOnly hexec
  constructor
  · by_cases hw : Writes i .DT
    · obtain ⟨x, rfl⟩ := writes_DT.mp hw
      obtain rfl := exec_next hexec
      exact .inr ⟨x, hi, rfl⟩
    · exact .inl (hframe .DT hw)
  · by_cases hw : Writes i .ST
    · obtain ⟨x, rfl⟩ := writes_ST.mp hw
      obtain rfl := exec_next hexec
      exact .inr ⟨x, hi, rfl⟩
    · exact .inl (hframe .ST hw)

/-- Settles O52: the writers of the four components, read off the frames. -/
theorem memoryIndexAndStackWriters : Obligations.MemoryIndexAndStackWriters := by
  unfold Obligations.MemoryIndexAndStackWriters
  intro i s t h
  have hframe := exec_changesOnly h
  refine ⟨fun hno a => hframe (.byte a) ?_, fun hldI hno => hframe .I ?_, fun hcall => ⟨fun k => hframe (.stack k) ?_,
    fun hret => hframe .sp ?_⟩⟩
  · rw [writes_byte]
    rintro ⟨x, hx | hx⟩
    · exact (hno x).1 hx
    · exact (hno x).2 hx
  · rw [writes_I]
    rintro (⟨w, hw⟩ | ⟨x, hx⟩)
    · exact hldI w hw
    · have := hno x
      tauto
  · rw [writes_stack]
    exact fun ⟨w, hw⟩ => hcall w hw
  · rw [writes_sp]
    rintro (hr | ⟨w, hw⟩)
    · exact hret hr
    · exact hcall w hw

end Sys2Proof.Machine
end

section
/-! PROOFS. The invariant of a step and of a session (R25, R94, R95, R101, R209, R210), and the host's skip (R233). -/

namespace Sys2Proof.Machine

/-! ### Memory stays canonical -/

/-- Every instruction but Fx33 and Fx55 leaves the list of cells as it is. -/
theorem exec_mem {i : Instr} {s t : State} (h : exec i s = .next t) (hno : ∀ x, i ≠ .ldBVx x ∧ i ≠ .ldMemVx x) :
    t.mem = s.mem := by
  have hshape := exec_next h
  cases i
  case ldBVx x => exact absurd rfl (hno x).1
  case ldMemVx x => exact absurd rfl (hno x).2
  case cls | jp | ldI | jpV0 | ldDTVx | ldSTVx => obtain rfl := hshape; rfl
  case seImm | sneImm | seReg | sneReg | skp | sknp => obtain rfl | rfl := hshape <;> rfl
  case ret | call | ldImm | addImm | ldReg | orReg | andReg | xorReg | rnd | ldVxDT | ldFVx =>
    obtain ⟨_, rfl⟩ := hshape; rfl
  case addReg | subReg | shr | subnReg | shl | drw | addIVx | ldVxMem => obtain ⟨_, _, rfl⟩ := hshape; rfl
  case ldVxK => obtain rfl | ⟨_, rfl⟩ := hshape <;> rfl

theorem exec_keeps_memCanonical {i : Instr} {s t : State} (h : exec i s = .next t) (hm : MemCanonical s) :
    MemCanonical t := by
  by_cases hw : ∀ x, i ≠ .ldBVx x ∧ i ≠ .ldMemVx x
  · rw [MemCanonical, exec_mem h hw]
    exact hm
  · simp only [not_forall, not_and_or, not_not] at hw
    obtain ⟨x, rfl | rfl⟩ := hw
    · obtain ⟨hrange, rfl⟩ := exec_next h
      exact State.memWriteBytes_canonical hm hrange
    · obtain ⟨hrange, rfl⟩ := exec_next h
      exact State.memWriteBytes_canonical hm (by rw [State.blockValues_length]; exact hrange)

/-! ### The return addresses stay fetchable -/

theorem ReturnsFetchable.of_stack {s t : State} (h : ReturnsFetchable s) (hsp : t.sp.val ≤ s.sp.val)
    (hstack : ∀ k, t.stackEntry k = s.stackEntry k) : ReturnsFetchable t := fun k hk => by
  rw [hstack k]
  exact h k (by omega)

/-- A call from a fetched word pushes a fetchable address. -/
theorem call_keeps_returnsFetchable {s t : State} {nnn : Word} (h : exec (.call nnn) s = .next t)
    (hp : s.pc.toNat ≤ 0xFFE) (hr : ReturnsFetchable s) : ReturnsFetchable t := by
  obtain ⟨k, u, hk, rfl, hentry, hsp, hframe⟩ := exec_call_next h
  intro j hj
  by_cases hjk : j = k
  · rw [hjk]
    exact (congrArg BitVec.toNat hentry).trans_le hp
  · have hsame : u.stackEntry j = s.stackEntry j := hframe (.stack j) (by simpa using hjk)
    have hju : j.val < k.val + 1 := hsp ▸ hj
    have hne : j.val ≠ k.val := fun e => hjk (Fin.ext e)
    exact (congrArg BitVec.toNat hsame).trans_le (hr j (by omega))

/-- A call pushes the address of a word that was fetched; every other instruction leaves the entries and can only free one. -/
theorem exec_keeps_returnsFetchable {i : Instr} {s t : State} (h : exec i s = .next t) (hp : s.pc.toNat ≤ 0xFFE)
    (hr : ReturnsFetchable s) : ReturnsFetchable t := by
  have hframe := exec_changesOnly h
  by_cases hcall : ∃ w, i = .call w
  · obtain ⟨w, rfl⟩ := hcall
    exact call_keeps_returnsFetchable h hp hr
  · have hstack : ∀ k, t.stackEntry k = s.stackEntry k := fun k => hframe (.stack k) (mt writes_stack.mp hcall)
    by_cases hret : i = .ret
    · subst hret
      obtain ⟨hpos, rfl⟩ := exec_next h
      exact hr.of_stack (Nat.sub_le _ _) hstack
    · have hsp : t.sp = s.sp := hframe .sp (mt writes_sp.mp (by simp [hret, hcall]))
      exact hr.of_stack (by rw [hsp]) hstack

/-! ### pc stays reachable -/

/-- All that an instruction can do to pc (R24, R101 to R108). -/
theorem exec_pc_cases {i : Instr} {s t : State} (h : exec i s = .next t) :
    t.pc = s.pc ∨ t.pc = s.pc + 2 ∨ t.pc = s.pc + 4 ∨ (i = .jp t.pc ∨ i = .call t.pc) ∨
      (∃ nnn, i = .jpV0 nnn ∧ t.pc = s.jumpTarget nnn) ∨
      ∃ k : Fin 16, k.val < s.sp.val ∧ t.pc = s.stackEntry k + 2 := by
  have hshape := exec_next h
  cases i
  case ret => obtain ⟨hpos, rfl⟩ := hshape; exact .inr (.inr (.inr (.inr (.inr ⟨_, Nat.sub_one_lt_of_lt hpos, rfl⟩))))
  case jp => obtain rfl := hshape; exact .inr (.inr (.inr (.inl (.inl rfl))))
  case call => obtain ⟨_, rfl⟩ := hshape; exact .inr (.inr (.inr (.inl (.inr rfl))))
  case jpV0 nnn => obtain rfl := hshape; exact .inr (.inr (.inr (.inr (.inl ⟨nnn, rfl, rfl⟩))))
  case seImm | sneImm | seReg | sneReg | skp | sknp =>
    obtain rfl | rfl := hshape
    · exact .inr (.inl rfl)
    · exact .inr (.inr (.inl rfl))
  case ldVxK =>
    obtain rfl | ⟨_, rfl⟩ := hshape
    · exact .inl rfl
    · exact .inr (.inl rfl)
  case cls | ldI | ldDTVx | ldSTVx => obtain rfl := hshape; exact .inr (.inl rfl)
  case ldBVx | ldMemVx => obtain ⟨_, rfl⟩ := hshape; exact .inr (.inl rfl)
  case ldImm | addImm | ldReg | orReg | andReg | xorReg | rnd | ldVxDT | ldFVx =>
    obtain ⟨_, rfl⟩ := hshape; exact .inr (.inl rfl)
  case addReg | subReg | shr | subnReg | shl | drw | addIVx | ldVxMem => obtain ⟨_, _, rfl⟩ := hshape; exact .inr (.inl rfl)

/-- The sum of V[0] and a 12-bit address is not reduced (R108; D3). -/
theorem State.jumpTarget_toNat (s : State) {nnn : Word} (h : nnn.toNat ≤ 0xFFF) :
    (s.jumpTarget nnn).toNat = (s.v 0).toNat + nnn.toNat := by
  have := (s.v 0).isLt
  rw [State.jumpTarget, BitVec.toNat_ofNat]
  exact Nat.mod_eq_of_lt (by omega)

theorem pcReachable_add {w k : Word} (hw : w.toNat ≤ 0xFFE) (hk : k.toNat ≤ 4) : (w + k).toNat ≤ 0x10FE := by
  rw [BitVec.toNat_add]
  omega

/-- From a word that a fetch can read, with operands that fit its fields, no instruction takes pc past 0x10FE. -/
theorem exec_keeps_pcReachable {i : Instr} {s t : State} (h : exec i s = .next t) (hwf : i.WellFormed)
    (hp : s.pc.toNat ≤ 0xFFE) (hr : ReturnsFetchable s) : PcReachable t := by
  unfold PcReachable
  rcases exec_pc_cases h with e | e | e | e | ⟨nnn, rfl, e⟩ | ⟨k, hk, e⟩
  · rw [e]; omega
  · rw [e]; exact pcReachable_add hp (by decide)
  · rw [e]; exact pcReachable_add hp (by decide)
  · have hfits : t.pc.toNat ≤ 0xFFF := by rcases e with rfl | rfl <;> exact of_decide_eq_true hwf
    omega
  · have hfits : nnn.toNat ≤ 0xFFF := of_decide_eq_true hwf
    have := (s.v 0).isLt
    rw [e, s.jumpTarget_toNat hfits]
    omega
  · rw [e]; exact pcReachable_add (hr k hk) (by decide)

/-! ### The step -/

/-- The instruction that a step runs has operands that fit its fields. -/
theorem State.wellFormed_of_nextInstr {s : State} {i : Instr} (hi : s.nextInstr = some i) : i.WellFormed := by
  obtain ⟨op, -, hd⟩ := State.nextInstr_eq_some.mp hi
  exact wellFormed_of_decodeWord (dispatch_eq_some.mp hd).1

theorem step_keeps_memCanonical {s t : State} (h : step s = .next t) (hm : MemCanonical s) : MemCanonical t := by
  obtain ⟨-, i, -, hexec⟩ := step_next h
  exact exec_keeps_memCanonical hexec hm

theorem step_keeps_returnsFetchable {s t : State} (h : step s = .next t) (hr : ReturnsFetchable s) :
    ReturnsFetchable t := by
  obtain ⟨-, i, hi, hexec⟩ := step_next h
  exact exec_keeps_returnsFetchable hexec (State.pc_of_nextInstr hi) hr

/-- Settles O58: no cell is listed and no stack entry is in use. -/
theorem resetMeetsInvariant : Obligations.ResetMeetsInvariant := by
  unfold Obligations.ResetMeetsInvariant
  exact ⟨State.reset_mem_wf, fun k hk => absurd hk (Nat.not_lt_zero k.val), show (0x200 : Word).toNat ≤ 0x10FE by decide⟩

/-- Settles O59: the word that a step runs has been fetched, so a call pushes a fetchable address, and a return goes to the word
after one. -/
theorem stepKeepsInvariant : Obligations.StepKeepsInvariant := by
  unfold Obligations.StepKeepsInvariant
  rintro s t ⟨hmem, hreturns, -⟩ h
  obtain ⟨-, i, hi, hexec⟩ := step_next h
  exact ⟨step_keeps_memCanonical h hmem, step_keeps_returnsFetchable h hreturns,
    exec_keeps_pcReachable hexec (State.wellFormed_of_nextInstr hi) (State.pc_of_nextInstr hi) hreturns⟩

/-! ### The operations of a session -/

/-- All that a step does to a session (R92, R209). -/
theorem stepSession_cases (σ : Session) :
    (∃ t, step σ.core = .next t ∧ stepSession σ = (⟨t, none⟩, .ok)) ∨
      stepSession σ = (⟨σ.core, none⟩, .waiting) ∨
      (∃ c, step σ.core = .fault c ∧ stepSession σ = (⟨σ.core, some c⟩, .error c)) ∨
      ∃ r, stepSession σ = (⟨σ.core, none⟩, .refused r) := by
  obtain ⟨-, -, hok, herror, -⟩ := cycleOutcomesAreThoseOfTheStep σ.core
  unfold stepSession
  cases hc : cycle σ.core with
  | ok t => exact .inl ⟨t, hok t hc, rfl⟩
  | waiting => exact .inr (.inl rfl)
  | error c => exact .inr (.inr (.inl ⟨c, (herror c).mp hc, rfl⟩))
  | refused r => exact .inr (.inr (.inr ⟨r, rfl⟩))

/-- A tick counts the timers of the core or does nothing; what is open to a skip stays so. -/
theorem tickSession_cases (σ : Session) :
    (tickSession σ).1 = { σ with core := σ.core.countTimers } ∨ (tickSession σ).1 = σ := by
  unfold tickSession
  cases hl : σ.core.loaded with
  | true => rw [tick_of_loaded hl]; exact .inl rfl
  | false => rw [show tick σ.core = .refused .notLoaded from if_neg (by simp [hl])]; exact .inr rfl

/-- A reset closes the error, and leaves memory canonical and the stack empty, whether the image loads or not. -/
theorem resetSession_spec (image : Option (List Byte)) (σ : Session) :
    ∃ t reply, resetSession image σ = (⟨t, none⟩, reply) ∧ MemCanonical t ∧ t.sp = 0 := by
  unfold resetSession
  rcases resetImage_cases image σ.core with ⟨bytes, -, hlen, e⟩ | ⟨reason, -, e⟩
  · have hfit : loadBase + bytes.length ≤ topAddress + 1 := by
      unfold maxImage at hlen
      unfold loadBase topAddress
      omega
    exact ⟨{ σ.core.cleared.memWriteBytes loadBase bytes with loaded := true }, .ok, by rw [e],
      State.memWriteBytes_canonical σ.core.cleared_canonical hfit, rfl⟩
  · exact ⟨{ σ.core.cleared with loaded := false }, .error (.programLoadError reason), by rw [e],
      σ.core.cleared_canonical, rfl⟩

theorem skip_of_openError {σ : Session} {c : Fault} (h : σ.openError = some c) :
    perform .skip σ = some (⟨σ.core.skipFaulting, none⟩, .ok) := by
  simp [perform, skipSession, h]

theorem skip_of_no_openError {σ : Session} (h : σ.openError = none) : perform .skip σ = none := by
  simp [perform, skipSession, h]

theorem skip_isSome (σ : Session) : (perform .skip σ).isSome = σ.openError.isSome := by
  cases h : σ.openError with
  | none => rw [skip_of_no_openError h]; rfl
  | some c => rw [skip_of_openError h]; rfl

theorem Session.Inv.of_closed {σ : Session} (hmem : MemCanonical σ.core) (hreturns : ReturnsFetchable σ.core)
    (h : σ.openError = none) : σ.Inv :=
  ⟨hmem, hreturns, fun c hc => by simp [h] at hc⟩

/-- Operations that touch keys, timers and drawFlag only keep the invariant: the open error is the one the step repeats. -/
theorem Session.Inv.of_keys_timers_drawFlag {σ : Session} (h : σ.Inv) (ks : Vector Bool 16) (d e : Byte) (f : Bool) :
    Session.Inv { σ with core := { σ.core with keys := ks, DT := d, ST := e, drawFlag := f } } :=
  ⟨h.mem, h.returns, fun c hc => errorIsRepeated σ.core c ks d e f σ.core.draws (h.error c hc)⟩

theorem stepSession_keeps_inv {σ : Session} (h : σ.Inv) : (stepSession σ).1.Inv := by
  rcases stepSession_cases σ with ⟨t, ht, e⟩ | e | ⟨c, hc, e⟩ | ⟨r, e⟩
  · rw [e]
    exact .of_closed (step_keeps_memCanonical ht h.mem) (step_keeps_returnsFetchable ht h.returns) rfl
  · rw [e]; exact .of_closed h.mem h.returns rfl
  · rw [e]; exact ⟨h.mem, h.returns, fun c' hc' => by cases hc'; exact hc⟩
  · rw [e]; exact .of_closed h.mem h.returns rfl

theorem tickSession_keeps_inv {σ : Session} (h : σ.Inv) : (tickSession σ).1.Inv := by
  rcases tickSession_cases σ with e | e
  · rw [e]
    exact h.of_keys_timers_drawFlag σ.core.keys (countDown σ.core.DT) (countDown σ.core.ST) σ.core.drawFlag
  · rw [e]; exact h

theorem resetSession_inv (image : Option (List Byte)) (σ : Session) : (resetSession image σ).1.Inv := by
  obtain ⟨t, reply, e, hmem, hsp⟩ := resetSession_spec image σ
  rw [e]
  exact .of_closed hmem (fun k hk => absurd hk (by simp [hsp])) rfl

/-- Settles O60: a step that answers an error leaves it open and true, the operations that leave it open touch nothing it rests on,
and the others close it. -/
theorem operationsKeepSessionInvariant : Obligations.OperationsKeepSessionInvariant := by
  unfold Obligations.OperationsKeepSessionInvariant
  intro σ τ op reply hinv h
  cases op
  case step =>
    obtain rfl : (stepSession σ).1 = τ := congrArg Prod.fst (Option.some.inj h)
    exact stepSession_keeps_inv hinv
  case tick =>
    obtain rfl : (tickSession σ).1 = τ := congrArg Prod.fst (Option.some.inj h)
    exact tickSession_keeps_inv hinv
  case reset image =>
    obtain rfl : (resetSession image σ).1 = τ := congrArg Prod.fst (Option.some.inj h)
    exact resetSession_inv image σ
  case setKey k b =>
    cases h
    exact hinv.of_keys_timers_drawFlag (σ.core.keys.set k b) σ.core.DT σ.core.ST σ.core.drawFlag
  case read => cases h; exact hinv
  case clearDrawFlag => cases h; exact hinv.of_keys_timers_drawFlag σ.core.keys σ.core.DT σ.core.ST false
  case skip =>
    cases ho : σ.openError with
    | none => rw [skip_of_no_openError ho] at h; cases h
    | some c =>
      rw [skip_of_openError ho] at h
      cases h
      exact .of_closed hinv.mem hinv.returns rfl

/-! ### The skip (R233; D21) -/

theorem State.skipFaulting_changesOnly (s : State) : ChangesOnly (· = .pc) s s.skipFaulting := s.setPc_changesOnly _

/-- The operations that are no step, no skip and no reset leave the error as it was. -/
theorem perform_keeps_openError {σ τ : Session} {op : Operation} {reply : Reply} (hstep : op ≠ .step) (hskip : op ≠ .skip)
    (hreset : ∀ image, op ≠ .reset image) (h : perform op σ = some (τ, reply)) : τ.openError = σ.openError := by
  cases op
  case step => exact absurd rfl hstep
  case skip => exact absurd rfl hskip
  case reset image => exact absurd rfl (hreset image)
  case tick =>
    obtain rfl : (tickSession σ).1 = τ := congrArg Prod.fst (Option.some.inj h)
    rcases tickSession_cases σ with e | e <;> rw [e]
  case setKey | read | clearDrawFlag => cases h; rfl

/-- Settles O57: a skip asks for an open error, which a step that returns one opens, every other step, a reset and a skip close, and
the other operations leave alone. -/
theorem skipOnlyAfterError : Obligations.SkipOnlyAfterError := by
  unfold Obligations.SkipOnlyAfterError
  refine ⟨fun σ τ c h => ?_, fun σ τ reply h hne => ?_, fun σ image => ?_, fun σ τ op reply h1 h2 h3 h => ?_⟩
  · have hs : stepSession σ = (τ, .error c) := Option.some.inj h
    rcases stepSession_cases σ with ⟨t, -, e⟩ | e | ⟨c', hc, e⟩ | ⟨r, e⟩ <;> cases e.symm.trans hs
    have hl := (step_eq_fault.mp hc).1
    exact ⟨rfl, _, skip_of_openError rfl, State.skipFaulting_pc, σ.core.skipFaulting_changesOnly,
      fun hp => step_of_fetch_error hl (State.skipFaulting_pc_past hp), skip_of_no_openError rfl⟩
  · have hs : stepSession σ = (τ, reply) := Option.some.inj h
    rcases stepSession_cases σ with ⟨t, -, e⟩ | e | ⟨c, -, e⟩ | ⟨r, e⟩ <;> cases e.symm.trans hs
    · exact skip_of_no_openError rfl
    · exact skip_of_no_openError rfl
    · exact absurd rfl (hne c)
    · exact skip_of_no_openError rfl
  · obtain ⟨t, reply, e, -, -⟩ := resetSession_spec image σ
    exact ⟨_, reply, congrArg some e, skip_of_no_openError rfl⟩
  · rw [skip_isSome, skip_isSome, perform_keeps_openError h1 h2 h3 h]

end Sys2Proof.Machine
end

section
/-! PROOFS. The rest of 41_control_flow.md and 42_alu.md: the call with its return, and the operations that write VF. -/

namespace Sys2Proof.Machine

/-- Settles O23: the sum of V[0] and a 12-bit address fits 16 bits. -/
theorem jumpPlusV0 : Obligations.JumpPlusV0 := by
  unfold Obligations.JumpPlusV0
  exact ⟨(Instr.jpV0 0).encodes_row, fun s nnn h => ⟨_, rfl, s.jumpTarget_toNat h, s.setPc_changesOnly _⟩⟩

/-- Settles O24: the return pops the entry that the call pushed, the call's own address. -/
theorem callThenReturn : Obligations.CallThenReturn := by
  unfold Obligations.CallThenReturn
  intro s t nnn hp h
  obtain ⟨k, u, hk, rfl, hentry, hsp, -⟩ := exec_call_next h
  obtain ⟨v, hpop, hsp', -⟩ := State.pop_spec (s := u.setPc nnn) hsp
  refine ⟨_, exec_ret_of_pop hpop, ?_, Fin.ext (hsp'.trans hk.symm)⟩
  have hentry' : (u.setPc nnn).stackEntry k = s.pc := hentry
  rw [State.setPc_pc, hentry', BitVec.toNat_add]
  exact Nat.mod_eq_of_lt (show s.pc.toNat + 2 < 2 ^ 16 by omega)

/-! ### VF written beside V[x] (R125) -/

/-- VF first, then V[x] from the registers as they then are. -/
theorem flagThenResult_spec (x : Reg) (flag : Byte) (result : State → Byte) (s : State) :
    ∃ t, flagThenResult x flag result s = .next t ∧ t.v x = result (s.setVF flag) ∧ (x ≠ 0xF → t.v 0xF = flag) ∧
      AdvancesBy 2 s t ∧ ChangesOnly (fun c => c = .v x ∨ c = .v 0xF ∨ c = .pc) s t := by
  obtain ⟨hv, hpc, hframe⟩ := (s.setVF flag).setV_advance_spec x (result (s.setVF flag))
  refine ⟨_, rfl, hv, fun hx => ?_, hpc, ?_⟩
  · exact (State.setV_at_other _ _ hx).trans (s.setV_at_same flagReg flag)
  · exact ((s.setV_changesOnly flagReg flag).trans hframe).mono fun c hc => or_left_comm.mp hc

/-- A register after the VF write: the flag if it is VF, else what it held. -/
theorem State.setVF_at_v (s : State) (flag : Byte) (x : Reg) :
    (s.setVF flag).v x = if x = 0xF then flag else s.v x := by
  rw [State.setVF_eq, State.setV_at_v]
  exact if_congr eq_comm rfl rfl

/-- V[x] first, then VF, which stays: 8xy4. -/
theorem resultThenFlag_spec (s : State) (x : Reg) (b flag : Byte) :
    (x ≠ 0xF → ((s.setV x b).setVF flag).advance.v x = b) ∧ ((s.setV x b).setVF flag).advance.v 0xF = flag ∧
      AdvancesBy 2 s ((s.setV x b).setVF flag).advance ∧
      ChangesOnly (fun c => c = .v x ∨ c = .v 0xF ∨ c = .pc) s ((s.setV x b).setVF flag).advance := by
  obtain ⟨hv, hpc, hframe⟩ := (s.setV x b).setV_advance_spec flagReg flag
  refine ⟨fun hx => ?_, hv, hpc, (s.setV_changesOnly x b).trans hframe⟩
  exact (State.setV_at_other _ _ (Ne.symm hx)).trans (s.setV_at_same x b)

/-- Settles O26: the sum, then its carry. -/
theorem addRegisters : Obligations.AddRegisters := by
  unfold Obligations.AddRegisters
  refine ⟨(Instr.addReg 0 0).encodes_row, fun s x y hpol => ⟨_, withVfPolicy_runs hpol _, ?_⟩⟩
  obtain ⟨hv, hflag, hrest⟩ := resultThenFlag_spec s x (addResult (s.v x) (s.v y)) (carryFlag (s.v x) (s.v y))
  exact ⟨fun hx => (congrArg BitVec.toNat (hv hx)).trans (addResult_toNat _ _), hflag.trans (carryFlag_eq _ _), hrest⟩

/-- The borrow of V[p] - V[q], then that difference of the registers as the VF write left them: 8xy5 and 8xy7. -/
theorem flagThenDifference_spec {s : State} (x : Reg) {p q : Reg} {flag a b : Byte}
    (hflag : flag = if (s.v p).toNat ≥ (s.v q).toNat then 1 else 0) (ha : a = if p = 0xF then flag else s.v p)
    (hb : b = if q = 0xF then flag else s.v q) :
    ∃ t, flagThenResult x (noBorrowFlag (s.v p) (s.v q)) (fun t => subResult (t.v p) (t.v q)) s = .next t ∧
      (t.v x).toNat = (a.toNat + 256 - b.toNat) % 256 ∧ (x ≠ 0xF → t.v 0xF = flag) ∧
      AdvancesBy 2 s t ∧ ChangesOnly (fun c => c = .v x ∨ c = .v 0xF ∨ c = .pc) s t := by
  rw [← noBorrowFlag_eq] at hflag
  rw [← hflag]
  obtain ⟨t, ht, hv, hrest⟩ := flagThenResult_spec x flag (fun t => subResult (t.v p) (t.v q)) s
  rw [State.setVF_at_v, State.setVF_at_v, ← ha, ← hb] at hv
  exact ⟨t, ht, (congrArg BitVec.toNat hv).trans (subResult_toNat _ _), hrest⟩

/-- Settles O27: the difference V[x] - V[y]. -/
theorem subtractRegisters : Obligations.SubtractRegisters := by
  unfold Obligations.SubtractRegisters
  refine ⟨(Instr.subReg 0 0).encodes_row, fun s x y flag a b hpol hflag ha hb => ?_⟩
  obtain ⟨t, ht, hrest⟩ := flagThenDifference_spec x hflag ha hb
  exact ⟨t, (withVfPolicy_runs hpol _).trans ht, hrest⟩

/-- Settles O28: the difference V[y] - V[x]. -/
theorem subtractReversed : Obligations.SubtractReversed := by
  unfold Obligations.SubtractReversed
  refine ⟨(Instr.subnReg 0 0).encodes_row, fun s x y flag a b hpol hflag ha hb => ?_⟩
  obtain ⟨t, ht, hrest⟩ := flagThenDifference_spec x hflag hb ha
  exact ⟨t, (withVfPolicy_runs hpol _).trans ht, hrest⟩

/-- Settles O29: the bit shifted out, then the shift of V[x], which is that bit where x = 0xF. -/
theorem shiftByOne : Obligations.ShiftByOne := by
  unfold Obligations.ShiftByOne
  refine ⟨(Instr.shr 0 0).encodes_row, (Instr.shl 0 0).encodes_row, fun s x y hpol => ⟨?right, ?left⟩⟩
  case right =>
    obtain ⟨t, ht, hv, hflag, hrest⟩ :=
      flagThenResult_spec x (shiftedOutRight (s.v x)) (fun t => shrResult (t.v x)) s
    rw [State.setVF_at_v] at hv
    refine ⟨t, (withVfPolicy_runs hpol _).trans ht, fun hx => ?_, fun hx => ?_, hrest⟩
    · rw [hv, if_neg hx, shrResult_toNat, hflag hx, shiftedOutRight_toNat]
      exact ⟨rfl, rfl⟩
    · subst hx
      apply BitVec.eq_of_toNat_eq
      rw [hv, if_pos rfl, shrResult_toNat, shiftedOutRight_toNat]
      exact Nat.div_eq_of_lt (Nat.mod_lt _ (by decide))
  case left =>
    obtain ⟨t, ht, hv, hflag, hrest⟩ :=
      flagThenResult_spec x (shiftedOutLeft (s.v x)) (fun t => shlResult (t.v x)) s
    rw [State.setVF_at_v] at hv
    refine ⟨t, (withVfPolicy_runs hpol _).trans ht, fun hx => ?_, fun hx => ?_, hrest⟩
    · rw [hv, if_neg hx, shlResult_toNat, hflag hx, shiftedOutLeft_toNat]
      exact ⟨rfl, rfl⟩
    · subst hx
      have := (s.v 0xF).isLt
      rw [hv, if_pos rfl, shlResult_toNat, shiftedOutLeft_toNat]
      omega

/-! ### The words of R132 -/

theorem exec_refused_of_ordered {s : State} {i : Instr} (hp : s.params.vfOperandPolicy = .refuse)
    (hm : flagReg ∈ i.orderedOperands) : exec i s = .refused .vfOperand ∧ stateAfter (exec i s) s = s := by
  have h : exec i s = .refused .vfOperand := exec_eq_refused.mpr ⟨hp, hm, rfl⟩
  exact ⟨h, by rw [h]; rfl⟩

/-- An instruction that neither raises nor is refused answers a next state. -/
theorem exec_next_of_runs {s : State} {i : Instr} (hraise : ∀ c, ¬ Raises s c i)
    (hpol : PolicyRuns s i.orderedOperands) : ∃ t, exec i s = .next t := by
  cases h : exec i s with
  | next t => exact ⟨t, rfl⟩
  | fault c => exact absurd (exec_eq_fault.mp h) (hraise c)
  | refused r =>
    obtain ⟨hp, hm, -⟩ := exec_eq_refused.mp h
    rcases hpol with hseq | hno
    · rw [hp] at hseq; cases hseq
    · exact absurd hm hno

/-- Settles O30: whether a word is refused turns on its ordered operands alone, and none of these words raises an error. -/
theorem vfOperandsRefused : Obligations.VfOperandsRefused := by
  unfold Obligations.VfOperandsRefused
  intro s x y
  simp only [List.forall_mem_cons, List.not_mem_nil, IsEmpty.forall_iff, implies_true, and_true]
  have hxy : flagReg ∈ [x, y] ↔ x = 0xF ∨ y = 0xF := by simp [flagReg, eq_comm]
  have hx : flagReg ∈ [x] ↔ x = 0xF := by simp [flagReg, eq_comm]
  refine ⟨fun hp h => ?_, fun hp h => ?_, fun h => ?_, fun h => ?_, ⟨_, rfl⟩, ⟨_, rfl⟩, ⟨_, rfl⟩, ⟨_, rfl⟩⟩
  · have hm := hxy.mpr h
    exact ⟨exec_refused_of_ordered hp hm, exec_refused_of_ordered hp hm, exec_refused_of_ordered hp hm⟩
  · have hm := hx.mpr h
    exact ⟨exec_refused_of_ordered hp hm, exec_refused_of_ordered hp hm⟩
  · have hpol : PolicyRuns s [x, y] := h.imp id fun hne => by simpa [hxy] using hne
    exact ⟨exec_next_of_runs (fun _ => id) hpol, exec_next_of_runs (fun _ => id) hpol,
      exec_next_of_runs (fun _ => id) hpol⟩
  · have hpol : PolicyRuns s [x] := h.imp id (mt hx.mp)
    exact ⟨exec_next_of_runs (fun _ => id) hpol, exec_next_of_runs (fun _ => id) hpol⟩

end Sys2Proof.Machine
end

section
/-! PROOFS. The rest of 45_immediate_index.md and 44_io_timer_memory.md, sections 1 to 3: immediates, the draw, keys and timers. -/

namespace Sys2Proof.Machine

/-! ### A write of I, of DT or of ST and the next instruction -/

theorem State.setI_advance_spec (s : State) (w : Word) :
    (s.setI w).advance.I = w ∧ AdvancesBy 2 s (s.setI w).advance ∧
      ChangesOnly (fun c => c = .I ∨ c = .pc) s (s.setI w).advance :=
  ⟨rfl, AdvancesBy_add rfl rfl, (s.setI_changesOnly w).trans (State.setPc_changesOnly _ _)⟩

theorem State.setDT_advance_spec (s : State) (b : Byte) :
    (s.setDT b).advance.DT = b ∧ AdvancesBy 2 s (s.setDT b).advance ∧
      ChangesOnly (fun c => c = .DT ∨ c = .pc) s (s.setDT b).advance :=
  ⟨rfl, AdvancesBy_add rfl rfl, (s.setDT_changesOnly b).trans (State.setPc_changesOnly _ _)⟩

theorem State.setST_advance_spec (s : State) (b : Byte) :
    (s.setST b).advance.ST = b ∧ AdvancesBy 2 s (s.setST b).advance ∧
      ChangesOnly (fun c => c = .ST ∨ c = .pc) s (s.setST b).advance :=
  ⟨rfl, AdvancesBy_add rfl rfl, (s.setST_changesOnly b).trans (State.setPc_changesOnly _ _)⟩

/-- Settles O32: a write of V[x] with the sum, and a write of I. -/
theorem addImmediateAndLoadIndex : Obligations.AddImmediateAndLoadIndex := by
  unfold Obligations.AddImmediateAndLoadIndex
  refine ⟨(Instr.addImm 0 0).encodes_row, (Instr.ldI 0).encodes_row, fun s x nn => ?_, fun s nnn => ?_⟩
  · obtain ⟨hv, hrest⟩ := s.setV_advance_spec x (addResult (s.v x) nn)
    exact ⟨_, rfl, (congrArg BitVec.toNat hv).trans (addResult_toNat _ _), hrest⟩
  · exact ⟨_, rfl, s.setI_advance_spec nnn⟩

/-- Settles O33: a write of V[x] with the masked draw, and one step of the counter. -/
theorem randomMasked : Obligations.RandomMasked := by
  unfold Obligations.RandomMasked
  refine ⟨(Instr.rnd 0 0).encodes_row, fun s x nn => ?_⟩
  obtain ⟨hv, hpc, hframe⟩ := s.setV_advance_spec x (s.nextDraw &&& nn)
  refine ⟨(s.setV x (s.nextDraw &&& nn)).advance.useDraw, rfl, hv, ?_, rfl, hpc, ?_⟩
  · refine (congrArg BitVec.toNat hv).trans_le ?_
    rw [BitVec.toNat_and]
    exact Nat.and_le_right
  · exact (hframe.trans (State.useDraw_changesOnly _)).mono fun c => or_assoc.mp

end Sys2Proof.Machine

namespace Sys2Proof

open Machine

/-- Settles O37: a key value of at most 15 selects the key that decides the skip. -/
theorem skipOnKey : Obligations.SkipOnKey := by
  unfold Obligations.SkipOnKey
  refine ⟨(Instr.skp 0).encodes_row, (Instr.sknp 0).encodes_row, fun s x k hk => ⟨?_, ?_⟩⟩
  · exact ⟨_, skipOnKey_of_key hk true, s.skipIf_spec beq_iff_eq⟩
  · exact ⟨_, skipOnKey_of_key hk false, s.skipIf_spec beq_iff_eq⟩

end Sys2Proof

namespace Sys2Proof.Machine

/-- Settles O38: a key value above 15 selects no key. -/
theorem keyIndexAbove15Raises : Obligations.KeyIndexAbove15Raises := by
  unfold Obligations.KeyIndexAbove15Raises
  intro s x h
  have hskp : exec (.skp x) s = _ := skipOnKey_of_large h true
  have hsknp : exec (.sknp x) s = _ := skipOnKey_of_large h false
  exact ⟨⟨hskp, stateAfter_of_fault hskp s⟩, hsknp, stateAfter_of_fault hsknp s⟩

/-- Settles O39: one write each, of V[x], of DT and of ST. -/
theorem timerMoves : Obligations.TimerMoves := by
  unfold Obligations.TimerMoves
  refine ⟨(Instr.ldVxDT 0).encodes_row, (Instr.ldDTVx 0).encodes_row, (Instr.ldSTVx 0).encodes_row, fun s x => ⟨?_, ?_, ?_⟩⟩
  · exact ⟨_, rfl, s.setV_advance_spec x s.DT⟩
  · exact ⟨_, rfl, s.setDT_advance_spec (s.v x)⟩
  · exact ⟨_, rfl, s.setST_advance_spec (s.v x)⟩

/-- Settles O40: the lowest pressed key is the first one that Fx0A finds. -/
theorem keyWaitEnds : Obligations.KeyWaitEnds := by
  unfold Obligations.KeyWaitEnds
  refine ⟨(Instr.ldVxK 0).encodes_row, fun s x k hk hlow => ?_⟩
  obtain ⟨hv, hrest⟩ := s.setV_advance_spec x (BitVec.ofNat 8 k.val)
  refine ⟨_, exec_ldVxK_of_key (State.firstKey_eq_some.mpr ⟨hk, hlow⟩) x, ?_, hrest⟩
  rw [hv, BitVec.toNat_ofNat]
  exact Nat.mod_eq_of_lt (by omega)

/-- Settles O41: with no key pressed Fx0A finds none. -/
theorem keyWaitWaits : Obligations.KeyWaitWaits := by
  unfold Obligations.KeyWaitWaits
  exact fun s x h => exec_ldVxK_of_no_key h x

end Sys2Proof.Machine
end

section
/-! PROOFS. The rest of 44_io_timer_memory.md, section 4: I and the memory block. -/

namespace Sys2Proof.Machine

/-- Settles O42: the sum in I, then the flag of the sum before it is reduced. -/
theorem addToIndex : Obligations.AddToIndex := by
  unfold Obligations.AddToIndex
  refine ⟨(Instr.addIVx 0).encodes_row, fun s x => ?_⟩
  obtain ⟨hv, hpc, hframe⟩ :=
    (s.setI (indexPlus s.I (s.v x).toNat)).setV_advance_spec flagReg (indexOverflowFlag s.I (s.v x))
  exact ⟨_, rfl, indexPlus_toNat _ _, hv.trans (indexOverflowFlag_eq _ _), hpc, (s.setI_changesOnly _).trans hframe⟩

theorem glyphAddress_toNat (b : Byte) : (glyphAddress b).toNat = 5 * b.toNat := by
  have := b.isLt
  rw [glyphAddress, BitVec.toNat_ofNat]
  omega

/-- Settles O43: a write of I with five times V[x], which fits 16 bits. -/
theorem pointAtGlyph : Obligations.PointAtGlyph := by
  unfold Obligations.PointAtGlyph
  refine ⟨(Instr.ldFVx 0).encodes_row, fun s x => ?_⟩
  obtain ⟨hI, hrest⟩ := s.setI_advance_spec (glyphAddress (s.v x))
  exact ⟨_, rfl, (congrArg BitVec.toNat hI).trans (glyphAddress_toNat _), hrest⟩

/-! ### Bytes stored from I on (R159) -/

/-- The k-th byte of a block stored at I is read at I + k. -/
theorem State.memRead_block (s : State) {bs : List Byte} {k : Nat} (h : k < bs.length) :
    (s.memWriteBytes s.I.toNat bs).memRead (s.blockAddress k) = bs.getD k 0 := by
  rw [State.memRead_memWriteBytes, State.blockAddress, if_pos (by omega), Nat.add_sub_cancel_left]

/-- A block of `m + 1` bytes stored at I changes the cells at I to I + m. -/
theorem State.block_changesOnly (s : State) {bs : List Byte} {m : Nat} (h : bs.length = m + 1) :
    ChangesOnly (fun c => ∃ k, k ≤ m ∧ c = .byte (s.blockAddress k)) s (s.memWriteBytes s.I.toNat bs) :=
  (s.memWriteBytes_changesOnly s.I.toNat bs).mono fun _ ⟨k, hk, e⟩ => ⟨k, by omega, e⟩

/-- An instruction that raises leaves the state as it was. -/
theorem exec_of_raises {i : Instr} {s : State} {c : Fault} (h : Raises s c i) :
    exec i s = .fault c ∧ stateAfter (exec i s) s = s :=
  ⟨exec_eq_fault.mpr h, stateAfter_of_fault (exec_eq_fault.mpr h) s⟩

/-- The tens and the units are below ten and the hundreds below three, so each digit fits a byte. -/
theorem bcdDigits_toNat (b : Byte) :
    ((bcdDigits b).getD 0 0).toNat = b.toNat / 100 ∧ ((bcdDigits b).getD 1 0).toNat = b.toNat / 10 % 10 ∧
      ((bcdDigits b).getD 2 0).toNat = b.toNat % 10 := by
  have := b.isLt
  simp only [bcdDigits, List.getD_cons_zero, List.getD_cons_succ, BitVec.toNat_ofNat]
  omega

/-- Settles O44: a block of three digits, checked before it is stored. -/
theorem storeDecimalDigits : Obligations.StoreDecimalDigits := by
  unfold Obligations.StoreDecimalDigits
  refine ⟨(Instr.ldBVx 0).encodes_row, fun s x h => ?_, fun s x h => exec_of_raises ⟨by omega, rfl⟩⟩
  obtain ⟨hhundreds, htens, hunits⟩ := bcdDigits_toNat (s.v x)
  have hread : ∀ k, k < 3 →
      (s.memWriteBytes s.I.toNat (bcdDigits (s.v x))).memRead (s.blockAddress k) = (bcdDigits (s.v x)).getD k 0 :=
    fun k hk => s.memRead_block hk
  refine ⟨_, withRange_fits (.inr (by omega)) _, ?_, ?_, ?_, AdvancesBy_add rfl rfl, ?_⟩
  · exact (congrArg BitVec.toNat (hread 0 (by decide))).trans hhundreds
  · exact (congrArg BitVec.toNat (hread 1 (by decide))).trans htens
  · exact (congrArg BitVec.toNat (hread 2 (by decide))).trans hunits
  · exact ((s.block_changesOnly (m := 2) rfl).trans (State.setPc_changesOnly _ _)).mono fun c => Or.symm

/-- Past a block in memory I does not wrap. -/
theorem indexPlus_blockCount {s : State} {x : Reg} (h : s.I.toNat + x.val ≤ 0xFFF) :
    (indexPlus s.I (blockCount x)).toNat = s.I.toNat + x.val + 1 := by
  rw [indexPlus_toNat, blockCount]
  omega

/-- Settles O45: a block of the values of V[0] to V[x], checked before it is stored, then a write of I. -/
theorem storeRegisters : Obligations.StoreRegisters := by
  unfold Obligations.StoreRegisters
  refine ⟨(Instr.ldMemVx 0).encodes_row, fun s x h => ?_,
    fun s x h => exec_of_raises ⟨by unfold blockCount; omega, rfl⟩⟩
  have hfit : s.I.toNat + blockCount x ≤ 0x1000 := by unfold blockCount; omega
  refine ⟨_, withRange_fits (.inr hfit) _, fun k hk => ?_, indexPlus_blockCount h, AdvancesBy_add rfl rfl, ?_⟩
  · have hlt : k.val < (s.blockValues x).length := by
      rw [State.blockValues_length]
      exact Nat.lt_succ_of_le hk
    exact (s.memRead_block hlt).trans (s.blockValues_getD hk)
  · have hblock := s.block_changesOnly (s.blockValues_length x)
    exact ((hblock.trans (State.setI_changesOnly _ _)).trans (State.setPc_changesOnly _ _)).mono fun c hc => by tauto

/-- Setting the registers from V[k] on changes those that get a byte. -/
theorem State.setVs_changesOnly (s : State) (k : Nat) (bs : List Byte) :
    ChangesOnly (fun c => ∃ j : Reg, (k ≤ j.val ∧ j.val < k + bs.length) ∧ c = .v j) s (s.setVs k bs) := by
  intro c hc
  cases c
  case v j => exact (s.setVs_at_v k bs j).trans (if_neg fun hj => hc ⟨j, hj, rfl⟩)
  all_goals rw [State.setVs_eq]; rfl

/-- Settles O46: V[0] to V[x] set to the bytes of the block, checked before any is loaded, then a write of I. -/
theorem loadRegisters : Obligations.LoadRegisters := by
  unfold Obligations.LoadRegisters
  refine ⟨(Instr.ldVxMem 0).encodes_row, fun s x h => ?_,
    fun s x h => exec_of_raises ⟨by unfold blockCount; omega, rfl⟩⟩
  have hfit : s.I.toNat + blockCount x ≤ 0x1000 := by unfold blockCount; omega
  have hcount : ∀ k : Reg, 0 ≤ k.val ∧ k.val < 0 + (s.blockBytes x).length ↔ k ≤ x := fun k => by
    rw [State.blockBytes_length, blockCount, Fin.le_def]
    omega
  refine ⟨_, withRange_fits (.inr hfit) _, fun k hk => ?_, indexPlus_blockCount h, ?_, ?_⟩
  · refine (s.setVs_at_v 0 (s.blockBytes x) k).trans ?_
    rw [if_pos ((hcount k).mpr hk)]
    exact s.blockBytes_getD x hk
  · rw [State.setVs_eq]
    exact AdvancesBy_add rfl rfl
  · refine (((s.setVs_changesOnly 0 (s.blockBytes x)).trans (State.setI_changesOnly _ _)).trans
      (State.setPc_changesOnly _ _)).mono fun c hc => ?_
    simp only [hcount] at hc
    tauto

/-! ### Two instructions on one block -/

/-- A block that was stored is in memory. -/
theorem block_fits_of_store {s t : State} {x : Reg} (h : exec (.ldMemVx x) s = .next t) : s.I.toNat + x.val ≤ 0xFFF := by
  obtain ⟨hrange, -⟩ := exec_next h
  unfold blockCount at hrange
  omega

/-- What O45 says of the next state that a store has answered. -/
theorem stored_block {s t : State} {x : Reg} (h : exec (.ldMemVx x) s = .next t) :
    (∀ k : Reg, k ≤ x → t.memRead (s.blockAddress k.val) = s.v k) ∧ t.I.toNat = s.I.toNat + x.val + 1 := by
  obtain ⟨-, hstore, -⟩ := storeRegisters
  obtain ⟨t', ht', hbytes, hI, -, -⟩ := hstore s x (block_fits_of_store h)
  cases ht'.symm.trans h
  exact ⟨hbytes, hI⟩

/-- Settles O47: the load reads the bytes that the store put there. -/
theorem storeLoadRoundTrip : Obligations.StoreLoadRoundTrip := by
  unfold Obligations.StoreLoadRoundTrip
  intro s t u x w hst htu
  obtain ⟨hbytes, hI⟩ := stored_block hst
  have hfit := block_fits_of_store hst
  obtain ⟨-, hload, -⟩ := loadRegisters
  obtain ⟨u', hu', hregs, hI', -, -⟩ := hload { t with I := s.I, V := w } x hfit
  cases hu'.symm.trans htu
  exact ⟨fun k hk => (hregs k hk).trans (hbytes k hk), hI, hI'⟩

/-- Settles O48: the fetch reads the two stored bytes, both of them in memory. -/
theorem fetchSeesStores : Obligations.FetchSeesStores := by
  unfold Obligations.FetchSeesStores
  intro s t x k j a h hj hjx ha
  obtain ⟨hbytes, -⟩ := stored_block h
  have hfit := block_fits_of_store h
  have hjx' : j.val ≤ x.val := hjx
  have hkx : k ≤ x := Fin.le_def.mpr (by omega)
  have hnext : a.toNat + 1 = s.blockAddress j.val := by rw [ha, hj]; rfl
  refine State.fetch_eq_ok.mpr ⟨?_, ?_⟩
  · rw [State.setPc_pc, ha, State.blockAddress]
    omega
  · change _ = wordOfBytes (t.memRead a.toNat) (t.memRead (a.toNat + 1))
    rw [hnext, ha, hbytes k hkx, hbytes j hjx]

end Sys2Proof.Machine
end

section
/-! PROOFS. The sprite draw of 43_graphics.md. -/

namespace Sys2Proof.Machine

theorem State.setPixel_changesOnly (s : State) (c : Col) (q : Row) (b : Bool) :
    ChangesOnly (fun k => ∃ c r, k = .pixel c r) s (s.setPixel c q b) := s.allFb_changesOnly _

/-- A plot changes VF and the framebuffer. -/
theorem State.plot_changesOnly (s : State) (c : Col) (q : Row) :
    ChangesOnly (fun k => k = .v flagReg ∨ ∃ c r, k = .pixel c r) s (s.plot c q) := by
  unfold State.plot
  cases s.pixel c q
  · exact (State.setPixel_changesOnly _ _ _ _).mono fun k => .inr
  · exact (s.setV_changesOnly flagReg 1).trans (State.setPixel_changesOnly _ _ _ _)

theorem State.plotAll_changesOnly (s : State) (cells : List (Col × Row)) :
    ChangesOnly (fun k => k = .v flagReg ∨ ∃ c r, k = .pixel c r) s (s.plotAll cells) := by
  induction cells generalizing s with
  | nil => exact ChangesOnly.refl _ s
  | cons p ps ih => exact ((s.plot_changesOnly p.1 p.2).trans (ih (s.plot p.1 p.2))).mono fun k => or_self_iff.mp

/-- The state after Dxyn: VF reset, the cells of the sprite plotted, drawFlag set, and the next instruction. -/
def State.afterDraw (s : State) (x y : Reg) (n : Nat) : State :=
  ((s.setVF 0).plotAll (s.spriteCells (s.v x) (s.v y) n)).raiseDrawFlag.advance

theorem exec_drw_eq {s : State} {n : Nat} (h : n = 0 ∨ s.I.toNat + n ≤ 0x1000) (x y : Reg) :
    exec (.drw x y n) s = .next (s.afterDraw x y n) := by
  refine (withRange_fits h _).trans ?_
  rw [State.drawRows_eq]
  rfl

/-- Dxyn inverts the cells that the sprite covers. -/
theorem State.afterDraw_pixel (s : State) (x y : Reg) {n : Nat} (hn : n ≤ 15) (c : Col) (q : Row) :
    (SpriteCovers s x y n c q → (s.afterDraw x y n).pixel c q = !s.pixel c q) ∧
      (¬ SpriteCovers s x y n c q → (s.afterDraw x y n).pixel c q = s.pixel c q) := by
  obtain ⟨hpixel, -⟩ := (s.setVF 0).plotAll_spec _ (s.spriteCells_nodup (s.v x) (s.v y) (n := n) (by omega))
  rw [← State.mem_spriteCells]
  exact ⟨fun h => (hpixel c q).trans (if_pos h), fun h => (hpixel c q).trans (if_neg h)⟩

/-- VF is 1 after Dxyn iff the sprite covers a cell that was 1 (R141). -/
theorem State.afterDraw_flag (s : State) (x y : Reg) {n : Nat} (hn : n ≤ 15) :
    ((∃ c q, SpriteCovers s x y n c q ∧ s.pixel c q = true) → (s.afterDraw x y n).v 0xF = 1) ∧
      ((¬ ∃ c q, SpriteCovers s x y n c q ∧ s.pixel c q = true) → (s.afterDraw x y n).v 0xF = 0) := by
  obtain ⟨-, hflag⟩ := (s.setVF 0).plotAll_spec _ (s.spriteCells_nodup (s.v x) (s.v y) (n := n) (by omega))
  have hcollides : (∃ p ∈ s.spriteCells (s.v x) (s.v y) n, (s.setVF 0).pixel p.1 p.2 = true) ↔
      ∃ c q, SpriteCovers s x y n c q ∧ s.pixel c q = true := by
    simp only [Prod.exists, State.mem_spriteCells]
    rfl
  rw [← hcollides]
  refine ⟨fun h => (hflag 0xF).trans (if_pos ⟨rfl, h⟩), fun h => (hflag 0xF).trans ((if_neg fun hc => h hc.2).trans ?_)⟩
  exact s.setV_at_same flagReg 0

theorem State.afterDraw_changesOnly (s : State) (x y : Reg) (n : Nat) :
    ChangesOnly (fun k => k = .v 0xF ∨ k = .drawFlag ∨ k = .pc ∨ ∃ c q, k = .pixel c q) s (s.afterDraw x y n) :=
  ((((s.setV_changesOnly flagReg 0).trans (State.plotAll_changesOnly _ _)).trans
    (State.raiseDrawFlag_changesOnly _)).trans (State.setPc_changesOnly _ _)).mono fun k hk => by
      change (((k = .v 0xF ∨ k = .v 0xF ∨ _) ∨ _) ∨ _) at hk
      tauto

theorem State.afterDraw_advances (s : State) (x y : Reg) (n : Nat) : AdvancesBy 2 s (s.afterDraw x y n) := by
  unfold State.afterDraw
  rw [State.plotAll_eq]
  exact AdvancesBy_add rfl rfl

/-- Settles O34: no cell is plotted twice, so each plot meets the screen as it was. -/
theorem drawSprite : Obligations.DrawSprite := by
  unfold Obligations.DrawSprite
  refine ⟨(Instr.drw 0 0 0).encodes_row, fun s x y n hn hrange => ?_⟩
  obtain ⟨hset, hclear⟩ := s.afterDraw_flag x y hn
  exact ⟨_, exec_drw_eq hrange x y, s.afterDraw_pixel x y hn, hset, hclear, rfl, s.afterDraw_advances x y n,
    s.afterDraw_changesOnly x y n⟩

/-- Settles O35: the addresses are checked before anything is drawn. -/
theorem drawOutOfRangeRaises : Obligations.DrawOutOfRangeRaises := by
  unfold Obligations.DrawOutOfRangeRaises
  exact fun s x y n hn h => exec_of_raises ⟨by omega, rfl⟩

/-- A draw leaves the sprite's bytes and I, so a second one at the same place covers the same cells. -/
theorem spriteCovers_afterDraw {s : State} {x y : Reg} {n : Nat} (hx : (s.afterDraw x y n).v x = s.v x)
    (hy : (s.afterDraw x y n).v y = s.v y) (c : Col) (q : Row) :
    SpriteCovers (s.afterDraw x y n) x y n c q ↔ SpriteCovers s x y n c q := by
  have hframe := s.afterDraw_changesOnly x y n
  have hI : (s.afterDraw x y n).I = s.I := hframe .I (by simp)
  have hmem : ∀ a, (s.afterDraw x y n).memRead a = s.memRead a := fun a => hframe (.byte a) (by simp)
  unfold SpriteCovers
  simp only [hI, hmem, hx, hy]

/-- Settles O36: the second draw covers the same cells and finds each of them inverted. -/
theorem drawTwiceRestores : Obligations.DrawTwiceRestores := by
  unfold Obligations.DrawTwiceRestores
  intro s t u x y n hn hst hx hy htu
  cases (exec_drw_eq (withRange_next.mp hst).1 x y).symm.trans hst
  cases (exec_drw_eq (withRange_next.mp htu).1 x y).symm.trans htu
  have hcovers := spriteCovers_afterDraw hx hy
  have hfirst := s.afterDraw_pixel x y hn
  have hsecond := (s.afterDraw x y n).afterDraw_pixel x y hn
  obtain ⟨-, hclear⟩ := s.afterDraw_flag x y hn
  obtain ⟨hset', hclear'⟩ := (s.afterDraw x y n).afterDraw_flag x y hn
  simp only [hcovers] at hsecond hset' hclear'
  refine ⟨fun c q => ?_, fun ⟨c, q, hc, hp⟩ => ?_, fun h => ?_, fun h => ?_⟩
  · by_cases hc : SpriteCovers s x y n c q
    · rw [(hsecond c q).1 hc, (hfirst c q).1 hc, Bool.not_not]
    · rw [(hsecond c q).2 hc, (hfirst c q).2 hc]
  · exact hset' ⟨c, q, hc, by rw [(hfirst c q).1 hc, hp]; rfl⟩
  · refine hclear' fun ⟨c, q, hc, hp⟩ => ?_
    rw [(hfirst c q).1 hc, h c q hc] at hp
    exact absurd hp (by decide)
  · refine hclear fun ⟨c, q, hc, hp⟩ => ?_
    rw [h c q hc] at hp
    exact absurd hp (by decide)

end Sys2Proof.Machine
end

section
/-! PROOFS. The reset of 10_state.md section 10 and 70_reset_and_hazards.md section 1. -/

namespace Sys2Proof.Machine

/-- A cleared machine with the default parameters that has used no draw is the state after reset. -/
theorem State.cleared_eq_reset {s : State} (hp : s.params = standardParams) (hd : s.draws = 0) :
    s.cleared = State.reset := by
  have hfont : Memory.writeBytes [] 0 (fontBytes standardParams.font) = [] := Memory.writeBytes_standardFont
  unfold State.cleared
  rw [hp, hd, hfont]
  rfl

/-- A cleared machine is the state after reset but for the font's bytes, the parameters and the count of draws. -/
theorem State.cleared_changesOnly (s : State) :
    ChangesOnly (fun c => c = .params ∨ c = .draws ∨ ∃ a, c = .byte a) State.reset s.cleared := by
  intro c hc
  cases c
  case byte a => exact absurd (.inr (.inr ⟨a, rfl⟩)) hc
  case params => exact absurd (.inl rfl) hc
  case draws => exact absurd (.inr (.inl rfl)) hc
  all_goals rfl

theorem State.setLoaded_changesOnly (s : State) (b : Bool) : ChangesOnly (· = .loaded) s { s with loaded := b } := by
  intro c hc
  cases c
  case loaded => exact absurd rfl hc
  all_goals rfl

/-- Row r of glyph d is in memory after a clear (R31, R240). -/
theorem State.cleared_font (s : State) (d : Fin 16) (r : Fin 5) :
    s.cleared.memRead (5 * d.val + r.val) = (s.params.font.get d).get r :=
  (s.cleared_memRead _).trans (fontBytes_getD _ d r)

theorem State.cleared_memRead_zero (s : State) {a : Nat} (h : 0x50 ≤ a) : s.cleared.memRead a = 0 :=
  (s.cleared_memRead a).trans (fontBytes_getD_zero _ h)

/-- Settles O54: every component but memory is a literal of the reset state, and memory lists no cell. -/
theorem resetValues : Obligations.ResetValues := by
  unfold Obligations.ResetValues
  refine ⟨fun s hp hd => ?_, rfl, rfl, fun k => ?_, fun k => ?_, rfl, rfl, rfl, fun k => ?_, fun c r => ?_, rfl, rfl,
    fontBytes_getD standardFont, fun a => background_eq_zero⟩
  · rw [resetImage_loads s (Nat.zero_le _), State.cleared_eq_reset hp hd]
    rfl
  · simp [State.v, State.reset, Vector.get_eq_getElem]
  · simp [State.stackEntry, State.reset, Vector.get_eq_getElem]
  · simp [State.key, State.reset, Vector.get_eq_getElem]
  · simp [State.pixel, State.reset, Vector.get_eq_getElem]

/-- Settles O55: a load clears the state and stores the image at 0x200; a failed load clears the state. -/
theorem resetLoadsImage : Obligations.ResetLoadsImage := by
  unfold Obligations.ResetLoadsImage
  constructor
  · intro s image hlen
    have hread := s.cleared.memRead_memWriteBytes loadBase image
    have hbase : loadBase = 0x200 := rfl
    refine ⟨_, resetImage_loads s hlen, fun k hk => ?_, fun a ha => ?_, fun d r => ?_, rfl, rfl, fun c hc => ?_⟩
    · refine (hread (0x200 + k)).trans ?_
      rw [if_pos (by omega), hbase, Nat.add_sub_cancel_left]
    · exact (hread a).trans ((if_neg (by omega)).trans (s.cleared_memRead_zero (by omega)))
    · exact (hread _).trans ((if_neg (by omega)).trans (s.cleared_font d r))
    · cases c
      case loaded => rfl
      all_goals
        exact Eq.trans (State.memWriteBytes_changesBytes _ _ _ _ fun h => hc (.inr (.inr h)))
          (s.cleared_changesOnly _ hc)
  · intro s image reason h
    have hfail : loadFailure image = some reason := by
      rcases h with ⟨rfl, rfl⟩ | ⟨bytes, rfl, hlen, rfl⟩
      · rfl
      · exact if_pos hlen
    refine ⟨_, resetImage_fails s hfail, rfl, fun a => s.cleared_memRead_zero, s.cleared_font, ?_⟩
    exact (s.cleared_changesOnly.trans (State.setLoaded_changesOnly _ false)).mono fun c hc => by tauto

end Sys2Proof.Machine
end
